-- ==== Sys2Proof/Word.lean ====
section
/-!
DEFINITION. The word types of the Keccak engine (spec 00_scope.md R6, R8; 30_encoding.md R70).
Bit 0 of every value is its least significant bit (R8), which is `BitVec`'s own numbering.
-/

namespace Sys2Proof

/-- One byte: a cell of the staging buffer, of a host input window, of a block or of a digest. -/
abbrev Byte := BitVec 8

/-- One 32-bit word of the command port (30_encoding.md R70). -/
abbrev Word := BitVec 32

/-- One 64-bit lane of the Keccak state (00_scope.md R6). -/
abbrev Lane := BitVec 64

/-- The 25 lanes `A[0] .. A[24]`: the engine's only register file (10_state.md R21, R22). -/
abbrev Lanes := Vector Lane 25

/-- The staging buffer's cells `buf[0] .. buf[143]`: `RATE_MAX` = 144 bytes (10_state.md R25). -/
abbrev BufferCells := Vector Byte 144

end Sys2Proof
end

