-- ==== Sys2Proof/Machine/Bytes.lean ====
section
/-!
DEFINITION. Byte order, said once: everything is little-endian (00_scope.md R11; 20_memory.md R53 to R56;
30_encoding.md R70, R75, R83).
-/

namespace Sys2Proof.Machine

/-- `le64(b0, ..., b7)`: the value `b0 + b1·2^8 + ... + b7·2^56` (R11). -/
def le64 (b0 b1 b2 b3 b4 b5 b6 b7 : Byte) : Lane :=
  b7 ++ b6 ++ b5 ++ b4 ++ b3 ++ b2 ++ b1 ++ b0

/-- Byte `k` of a lane: `v[8k+7 : 8k]` (R11). -/
def laneByte (v : Lane) (k : Nat) : Byte := v.extractLsb' (8 * k) 8

/-- `bytesLE(v)`: the lane's eight bytes, byte 0 first (R11). -/
def bytesLE (v : Lane) : List Byte :=
  [laneByte v 0, laneByte v 1, laneByte v 2, laneByte v 3,
   laneByte v 4, laneByte v 5, laneByte v 6, laneByte v 7]

/-- `stateBytes(A)`: the 200-byte sequence of the lane state in lane order (R11, R54). -/
def stateBytes (A : Lanes) : List Byte := A.toList.flatMap bytesLE

/-- The 32-bit word whose byte 0 is `b0` (R70). -/
def word32 (b0 b1 b2 b3 : Byte) : Word := b3 ++ b2 ++ b1 ++ b0

/-- Byte `k` of a port word: bits `[8k+7 : 8k]` (R70). -/
def wordByte (w : Word) (k : Nat) : Byte := w.extractLsb' (8 * k) 8

/-- A port word serialised to its four bytes (R70). -/
def wordBytes (w : Word) : List Byte := [wordByte w 0, wordByte w 1, wordByte w 2, wordByte w 3]

/-- A byte sequence packed into port words: byte `j` is word `j div 4`, bits `[8·(j mod 4)+7 : 8·(j mod 4)]`
(R75 for a payload, R83 for a digest). The bytes of a last word that lie past the sequence are 0 (log entry 6). -/
def packWords : List Byte → List Word
  | [] => []
  | [b0] => [word32 b0 0 0 0]
  | [b0, b1] => [word32 b0 b1 0 0]
  | [b0, b1, b2] => [word32 b0 b1 b2 0]
  | b0 :: b1 :: b2 :: b3 :: rest => word32 b0 b1 b2 b3 :: packWords rest

/-- The bytes of a sequence of port words, in order (R75). -/
def unpackWords (ws : List Word) : List Byte := ws.flatMap wordBytes

/-- The whole words of a byte stream; one to three bytes left over are not a word yet (R70). -/
def wordsOfBytes : List Byte → List Word
  | b0 :: b1 :: b2 :: b3 :: rest => word32 b0 b1 b2 b3 :: wordsOfBytes rest
  | _ => []

end Sys2Proof.Machine
end

