-- ==== Sys2Proof/Syntax.lean ====
section
/-!
DEFINITION. The six commands of the engine, one constructor for each row of spec/opcode_table.json
(30_encoding.md R77), with the operands of R76.
-/

namespace Sys2Proof

/-- A host command with its decoded operands. -/
inductive Instr where
  /-- CONFIG (R141), format C: the 16-bit BITLEN field; every value is encodable (R73). -/
  | config (bitlen : BitVec 16)
  /-- SETMODE (R142), format M: the KM bit, true for 1 = Keccak padding (R72). -/
  | setmode (km : Bool)
  /-- INIT (R143), format N. -/
  | init
  /-- ABSORB (R144), format A: OFFSET and LENGTH as the 32-bit fields (two's complement, R76), and the host
  input window `H` that the command carries as its payload (R50, R75). BUFSIZE is the window's length, so it is
  not held a second time. -/
  | absorb (offset length : BitVec 32) (window : List Byte)
  /-- FINALIZE (R145), format N. -/
  | finalize
  /-- STATUS (R146), format N. -/
  | status
  deriving DecidableEq, Repr

end Sys2Proof
end

