-- ==== Sys2Proof/WellFormed.lean ====
section
/-!
DEFINITION. When a command is one the encoding can carry.
The only bound the operand types do not already give is BUFSIZE's: "`BUFSIZE` runs from 0 to 2^32 − 1"
(20_memory.md R50, 30_encoding.md R76).
-/

namespace Sys2Proof

/-- An ABSORB's window must have a size that BUFSIZE can hold; every other command is well formed. -/
def Instr.wellFormed : Instr → Bool
  | .config _ => true
  | .setmode _ => true
  | .init => true
  | .absorb _ _ window => decide (window.length < 2 ^ 32)
  | .finalize => true
  | .status => true

end Sys2Proof
end

