-- ==== Sys2Proof/Decode.lean ====
section
/-!
DEFINITION. The decoder of the command stream, total on any words (30_encoding.md R70 to R80, R86), and after it
the encoder, written from the same tables.
-/

namespace Sys2Proof

open Sys2Proof.Machine

/-- Why a command word is illegal. The engine answers both with ILLEGAL_COMMAND (60_exceptions.md R202). -/
inductive IllegalReason where
  /-- OP is 0x00 or in 0x07..0xFF (R79). -/
  | opcode
  /-- OP is legal and a reserved bit is 1 (R78). -/
  | reservedBits
  deriving DecidableEq, Repr

/-- What a decoder makes of the words at the port (R86). -/
inductive Decoded where
  /-- One of the six commands, and the words after it. -/
  | command (i : Instr) (rest : List Word)
  /-- An illegal command, its bits [7:0], and the words after its frame. -/
  | illegal (why : IllegalReason) (op : Byte) (rest : List Word)
  /-- The words end before a whole command: "a truncated stream, not a command, and the engine waits" (R86). -/
  | wait
  deriving DecidableEq, Repr

/-- The opcodes of R77. -/
def opConfig : Byte := 0x01
def opSetmode : Byte := 0x02
def opInit : Byte := 0x03
def opAbsorb : Byte := 0x04
def opFinalize : Byte := 0x05
def opStatus : Byte := 0x06

/-- OP: bits [7:0] of the command word (R70). -/
def opcodeOf (w : Word) : Byte := w.extractLsb' 0 8

/-- `ceil(BUFSIZE/4)`: how many payload words an ABSORB carries (R70, R74). -/
def payloadWords (bufSize : Nat) : Nat := (bufSize + 3) / 4

/-- A command word whose bits [31:8] must be 0: formats N and A (R71, R74, R78). -/
def plainWord (w : Word) (i : Instr) : Except IllegalReason Instr :=
  if w.extractLsb' 8 24 = 0 then .ok i else .error .reservedBits

/-- Format C (R73): BITLEN is bits [31:16]; bits [15:8] must be 0 (R78). -/
def configWord (w : Word) : Except IllegalReason Instr :=
  if w.extractLsb' 8 8 = 0 then .ok (.config (w.extractLsb' 16 16)) else .error .reservedBits

/-- Format M (R72): KM is bit 8; bits [31:9] must be 0 (R78). -/
def setmodeWord (w : Word) : Except IllegalReason Instr :=
  if w.extractLsb' 9 23 = 0 then .ok (.setmode (w.getLsbD 8)) else .error .reservedBits

/-- A command word that is a whole command by itself: every opcode but ABSORB's (R70, R77). -/
def decodeSingle (w : Word) : Except IllegalReason Instr :=
  if opcodeOf w = opConfig then configWord w
  else if opcodeOf w = opSetmode then setmodeWord w
  else if opcodeOf w = opInit then plainWord w .init
  else if opcodeOf w = opFinalize then plainWord w .finalize
  else if opcodeOf w = opStatus then plainWord w .status
  else .error .opcode

/-- The host input window of an ABSORB: `H[j]` is payload word `j div 4`, byte `j mod 4`, for `j < BUFSIZE`;
bytes of the last payload word past BUFSIZE are ignored (R75). -/
def windowOf (bufSize : Nat) (payload : List Word) : List Byte := (unpackWords payload).take bufSize

/-- The rest of an ABSORB after its word 0 (R74). A word 0 with a reserved bit set frames the same words and the
port consumes them (R78); DEDUCED (log entry 4): it, too, waits for its whole frame; safe. -/
def decodeAbsorb (w0 : Word) : List Word → Decoded
  | offset :: length :: bufSize :: tail =>
    if tail.length < payloadWords bufSize.toNat then .wait
    else
      match plainWord w0 (.absorb offset length (windowOf bufSize.toNat (tail.take (payloadWords bufSize.toNat)))) with
      | .ok i => .command i (tail.drop (payloadWords bufSize.toNat))
      | .error why => .illegal why opAbsorb (tail.drop (payloadWords bufSize.toNat))
  | _ => .wait

/-- The decoder: reads word 0, takes the length from OP alone, and yields a command, an illegal command, or waits
for words that have not come yet (R70, R86). -/
def decode : List Word → Decoded
  | [] => .wait
  | w0 :: rest =>
    if opcodeOf w0 = opAbsorb then decodeAbsorb w0 rest
    else
      match decodeSingle w0 with
      | .ok i => .command i rest
      | .error why => .illegal why (opcodeOf w0) rest

/-- The decoder on a byte stream, each word least significant byte first (R70); what is left is given in words. -/
def decodeBytes (bs : List Byte) : Decoded := decode (wordsOfBytes bs)

/-- The opcode of a command (R77). -/
def Instr.opcode : Instr → Byte
  | .config _ => opConfig
  | .setmode _ => opSetmode
  | .init => opInit
  | .absorb _ _ _ => opAbsorb
  | .finalize => opFinalize
  | .status => opStatus

/-- A word of format N or word 0 of format A: reserved bits [31:8], then OP (R71, R74). -/
def encodePlain (op : Byte) : Word := (0 : BitVec 24) ++ op

/-- The words of a command (R71 to R75). The payload bytes past the window are 0 (log entry 6). -/
def encode : Instr → List Word
  | .config bitlen => [bitlen ++ (0 : BitVec 8) ++ opConfig]
  | .setmode km => [(0 : BitVec 23) ++ BitVec.ofBool km ++ opSetmode]
  | .init => [encodePlain opInit]
  | .absorb offset length window =>
    [encodePlain opAbsorb, offset, length, BitVec.ofNat 32 window.length] ++ packWords window
  | .finalize => [encodePlain opFinalize]
  | .status => [encodePlain opStatus]

/-- The instruction of an opcode-table row given by its bits, laid out in port words: bit 0 of `w` is bit 0 of
word 0, and word `k` is bits `32k+31 .. 32k`. Bits at or above `nbits` are 0. The number of words is the frame
length of R70: 1, or for ABSORB `4 + ceil(BUFSIZE/4)` with the BUFSIZE that `w` holds. -/
def tableWords (nbits w : Nat) : List Word :=
  let bits := w % 2 ^ nbits
  let wordAt : Nat → Word := fun k => BitVec.ofNat 32 (bits >>> (32 * k))
  if opcodeOf (wordAt 0) = opAbsorb then
    (List.range (4 + payloadWords (wordAt 3).toNat)).map wordAt
  else [wordAt 0]

/-- What the decoder reads from an instruction's bits, numbered as spec/opcode_table.json numbers them. -/
def decodeTableWord (nbits w : Nat) : Option Instr :=
  match decode (tableWords nbits w) with
  | .command i [] => some i
  | _ => none

end Sys2Proof
end

