-- ==== Sys2Proof/Config.lean ====
section
/-!
DEFINITION. The two parameters the spec leaves OPEN (00_scope.md R7, 93_implementation_defined.md section 3).
Both are opaque: nothing in Lean can evaluate them, so a theorem about the engine holds for every value.
The spec leaves no other value open (41_sponge_commands.md R155).
-/

namespace Sys2Proof.Config

/-- OPEN parameter `resetKeccakPadding` (R7, R27, R35, decision D9): the padding mode flag `K` after hardware
reset, true for 1 (Keccak padding). DESIGN CHOICE (log entry 1): an opaque constant, no value is picked; safe. -/
opaque resetKeccakPadding : Bool

/-- How many engine instances a system holds beside the first one (log entry 2). -/
opaque furtherInstances : Nat

/-- OPEN parameter `N_INSTANCES` (R7, R216, decision D27): "at least 1", so written as a successor. -/
def nInstances : Nat := furtherInstances + 1

end Sys2Proof.Config
end

