-- ==== Sys2Proof/Machine/State.lean ====
section
/-!
DEFINITION. The state of one engine instance (10_state.md R20), the two streams of its command port
(30_encoding.md R70, R82), the reasons a step can stop, and the state after hardware reset (10_state.md R35).
-/

namespace Sys2Proof.Machine

/-- The configured digest length: `cfg`'s `bits` component, "one of 224, 256, 384 or 512" (10_state.md R23).
`rate` and `dlen` are functions of it (Machine/Operands.lean), so a triple that R23 does not give cannot be held. -/
inductive DigestLength where
  | bits224
  | bits256
  | bits384
  | bits512
  deriving DecidableEq, Repr

/-- The session state `fsm` (10_state.md R28). -/
inductive Fsm where
  | unconfigured
  | ready
  | absorbing
  | finalized
  deriving DecidableEq, Repr

/-- The spec's fault codes (60_exceptions.md R201). A command that raises one goes on to a NEXT state, with
`lastFault` written and a fault response sent (R200): it does not stop the machine. Code 7 is reserved and "never
produced", so no name stands for it. -/
inductive FaultCode where
  /-- Code 0, NONE: no fault since hardware reset (R29). -/
  | noFault
  /-- Code 1, ILLEGAL_COMMAND (R202). -/
  | illegalCommand
  /-- Code 2, NOT_CONFIGURED (R203). -/
  | notConfigured
  /-- Code 3, SEQUENCE (R204). -/
  | sequence
  /-- Code 4, BAD_DIGEST_LENGTH (R205). -/
  | badDigestLength
  /-- Code 5, BAD_RANGE (R206). -/
  | badRange
  /-- Code 6, INVARIANT (R207). -/
  | invariant
  deriving DecidableEq, Repr

/-- Why the MODEL stops: only in states that 10_state.md R26 and R36 rule out, where the spec gives a command no
effect. No run from reset reaches one (log entry 5). These are not the spec's faults (see `FaultCode`). -/
inductive Fault where
  /-- Raised by ABSORB and FINALIZE where `fsm` says configured and `cfg` is NONE, which R36 item 1 rules out. Safe. -/
  | noConfiguration
  /-- Raised by ABSORB and FINALIZE where `fill > rate`, which R26 rules out. Safe. -/
  | fillPastRate
  deriving DecidableEq, Repr

/-- Why the model gives a command no meaning. -/
inductive Refusal where
  /-- Raised by `exec` for a command of the opcode table without a meaning; no arm is left so. Safe. -/
  | notModelled (mnemonic : String)
  deriving DecidableEq, Repr

/-- The architectural state of one engine instance (R20: the first seven fields, "Nothing else persists between
commands") and the command port's two word streams. The constant tables are ROM and no state (R32), and the working
state of R31 does not outlive a command. -/
structure State where
  /-- The lane state `A[0] .. A[24]` (R21). -/
  A : Lanes
  /-- `cfg`: NONE, or the digest length that fixes `(bits, rate, dlen)` (R23). -/
  cfg : Option DigestLength
  /-- The staging buffer's 144 byte cells (R25). -/
  buf : BufferCells
  /-- The staging buffer's fill length (R26). -/
  fill : Nat
  /-- The padding mode flag, true for 1 = Keccak padding (R27). -/
  K : Bool
  /-- The session state (R28). -/
  fsm : Fsm
  /-- The code of the most recent command that faulted (R29). -/
  lastFault : FaultCode
  /-- The port's inbound words that the engine has not accepted yet, oldest first (R70, R234; log entry 3). -/
  portIn : List Word
  /-- The response words the engine has sent, oldest first (R82, R83; log entry 3). -/
  portOut : List Word
  deriving DecidableEq, Repr

/-- All 25 lanes zero (R35, R141, R143). -/
def zeroLanes : Lanes := Vector.replicate 25 0

/-- All 144 buffer cells zero (R35, R141, R143). -/
def zeroBuf : BufferCells := Vector.replicate 144 0

/-- The state after hardware reset of an engine whose parameter `resetKeccakPadding` is `k` (R35). -/
def State.resetWith (k : Bool) : State where
  A := zeroLanes
  cfg := none
  buf := zeroBuf
  fill := 0
  K := k
  fsm := .unconfigured
  lastFault := .noFault
  portIn := []
  portOut := []

/-- The machine right after hardware reset (R35, 70_reset_and_hazards.md R230): nothing is at the port, and `K` is
the OPEN parameter (log entry 1). -/
def State.reset : State := State.resetWith Config.resetKeccakPadding

end Sys2Proof.Machine
end

