-- ==== Sys2Proof/Machine/Operands.lean ====
section
/-!
DEFINITION. Every operand form of the commands (30_encoding.md R76): the digest length and what it fixes, the
signed byte offset and count with the range check, and the read of the host input window.
-/

namespace Sys2Proof.Machine

/-- `bits` (10_state.md R23). -/
def DigestLength.bits : DigestLength → Nat
  | .bits224 => 224
  | .bits256 => 256
  | .bits384 => 384
  | .bits512 => 512

/-- `rate = (1600 − 2·bits)/8`, in bytes (R23). -/
def DigestLength.rate (d : DigestLength) : Nat := (1600 - 2 * d.bits) / 8

/-- `dlen = bits/8`, in bytes (R23). -/
def DigestLength.dlen (d : DigestLength) : Nat := d.bits / 8

/-- `laneCount = rate/8` (00_scope.md R6, 40_permutation.md R114). -/
def DigestLength.laneCount (d : DigestLength) : Nat := d.rate / 8

/-- The digest length of a BITLEN operand `zext_16(word0[31:16])`, none where it is not one of the four
(30_encoding.md R76, 60_exceptions.md R205). -/
def digestLengthOf (bitlen : BitVec 16) : Option DigestLength :=
  if bitlen.toNat = 224 then some .bits224
  else if bitlen.toNat = 256 then some .bits256
  else if bitlen.toNat = 384 then some .bits384
  else if bitlen.toNat = 512 then some .bits512
  else none

/-- ABSORB's range check over unbounded integers: `offset ≥ 0`, `length ≥ 0` and `offset + length ≤ bufSize`, with
OFFSET and LENGTH sign-extended and BUFSIZE zero-extended (30_encoding.md R76; 60_exceptions.md R206). -/
def rangeOk (offset length : BitVec 32) (bufSize : Nat) : Bool :=
  decide (0 ≤ offset.toInt ∧ 0 ≤ length.toInt ∧ offset.toInt + length.toInt ≤ (bufSize : Int))

/-- `MemRead(addr, n)`: the bytes `H[addr .. addr+n−1]` of the host input window (20_memory.md R51). It is called
only after `rangeOk`. -/
def memRead (window : List Byte) (addr n : Nat) : List Byte := (window.drop addr).take n

/-- The bytes an ABSORB appends: `H[offset .. offset+length−1]` (41_sponge_commands.md R144). -/
def absorbInput (offset length : BitVec 32) (window : List Byte) : List Byte :=
  memRead window offset.toInt.toNat length.toInt.toNat

end Sys2Proof.Machine
end

