-- ==== Sys2Proof/Machine/Flags.lean ====
section
/-!
DEFINITION. The flag-like state and the words that show it. The engine has no condition codes and no arithmetic
flags (10_state.md R34): `K` and `fsm` are all there is, read back through STATUS (R30).
-/

namespace Sys2Proof.Machine

/-- The status encoding of `fsm` (R28). -/
def Fsm.code : Fsm → BitVec 2
  | .unconfigured => 0
  | .ready => 1
  | .absorbing => 2
  | .finalized => 3

/-- The 3-bit fault code (60_exceptions.md R201). -/
def FaultCode.code : FaultCode → BitVec 3
  | .noFault => 0
  | .illegalCommand => 1
  | .notConfigured => 2
  | .sequence => 3
  | .badDigestLength => 4
  | .badRange => 5
  | .invariant => 6

/-- The delimiter byte that `K` selects: `(K = 1) ? 0x01 : 0x06` (R27). -/
def delimiter (K : Bool) : Byte := if K then 0x01 else 0x06

/-- `rate` when configured, 0 when `cfg = NONE` (R30). -/
def rateOrZero : Option DigestLength → Nat
  | none => 0
  | some d => d.rate

/-- `dlen` when configured, 0 when `cfg = NONE` (R30). -/
def dlenOrZero : Option DigestLength → Nat
  | none => 0
  | some d => d.dlen

/-- The STATUS register, field by field from bit 31 down (R30): DLEN [31:24], RATE [23:16], FILL [15:8],
reserved [7], LASTFAULT [6:4], reserved [3], K [2], FSM [1:0]. -/
def statusWord (s : State) : Word :=
  BitVec.ofNat 8 (dlenOrZero s.cfg) ++ BitVec.ofNat 8 (rateOrZero s.cfg) ++ BitVec.ofNat 8 s.fill ++
    (0 : BitVec 1) ++ s.lastFault.code ++ (0 : BitVec 1) ++ BitVec.ofBool s.K ++ s.fsm.code

/-- Response word 0 (30_encoding.md R82): reserved [31:12], FCODE [11:9], F [8], OPECHO [7:0]. -/
def responseWord (fcode : BitVec 3) (f : Bool) (op : Byte) : Word :=
  (0 : BitVec 20) ++ fcode ++ BitVec.ofBool f ++ op

/-- Word 0 of a success response: F = 0 and FCODE = 0 (R82). -/
def okWord (op : Byte) : Word := responseWord 0 false op

/-- The one word of a fault response: F = 1 and FCODE = the code (R82). -/
def faultWord (op : Byte) (code : FaultCode) : Word := responseWord code.code true op

end Sys2Proof.Machine
end

