-- ==== Sys2Proof/Machine/Permutation.lean ====
section
/-!
DEFINITION. The permutation engine (40_permutation.md): the three constant tables, the five step mappings, the
round, the 24-round permutation and the absorb-combine primitive. Every step is a function from the step's input to
a new state; no right-hand side reads a partly updated state.
-/

namespace Sys2Proof.Machine

/-- `rotl64(v, n)`: left rotation by `n mod 64` places (00_scope.md R10). -/
def rotl64 (v : Lane) (n : Nat) : Lane := v.rotateLeft n

/-- `A[x,y]` = lane `A[x + 5·y]`, index arithmetic on `x` and `y` mod 5 (R9). -/
def lane (A : Lanes) (x y : Nat) : Lane := A[x % 5 + 5 * (y % 5)]

/-- The state whose lane `A[x,y]` is `f x y` (R9). -/
def lanesOf (f : Nat → Nat → Lane) : Lanes := Vector.ofFn fun i => f (i.val % 5) (i.val / 5)

/-- R101's table as it is printed: line `ir` holds `(RC[ir], RC[ir + 12])`. -/
def roundConstantLines : Vector (Lane × Lane) 12 :=
  #v[(0x0000000000000001, 0x000000008000808B),
     (0x0000000000008082, 0x800000000000008B),
     (0x800000000000808A, 0x8000000000008089),
     (0x8000000080008000, 0x8000000000008003),
     (0x000000000000808B, 0x8000000000008002),
     (0x0000000080000001, 0x8000000000000080),
     (0x8000000080008081, 0x000000000000800A),
     (0x8000000000008009, 0x800000008000000A),
     (0x000000000000008A, 0x8000000080008081),
     (0x0000000000000088, 0x8000000000008080),
     (0x0000000080008009, 0x0000000080000001),
     (0x000000008000000A, 0x8000000080008008)]

/-- The round constants `RC[0..23]` (R101): the table's left column, then its right one. -/
def roundConstants : Vector Lane 24 :=
  Vector.ofFn fun ir => if _ : ir.val < 12 then roundConstantLines[ir.val].1 else roundConstantLines[ir.val - 12].2

/-- R102's table as it is printed: line `y` holds the offsets of `A[0,y]` to `A[4,y]`. -/
def rotationOffsetLines : Vector (Vector Nat 5) 5 :=
  #v[#v[0, 1, 62, 28, 27], #v[36, 44, 6, 55, 20], #v[3, 10, 43, 25, 39], #v[41, 45, 15, 21, 8], #v[18, 2, 61, 56, 14]]

/-- The rotation offsets `RHO[0..24]` (R102), with `RHO[x + 5·y]` in column `x` of line `y`. -/
def rotationOffsets : Vector Nat 25 :=
  Vector.ofFn fun i => rotationOffsetLines[i.val / 5][i.val % 5]

/-- theta's column parities: `C[x] = A[x,0] ^ A[x,1] ^ A[x,2] ^ A[x,3] ^ A[x,4]` (R104). -/
def columnParity (A : Lanes) : Vector Lane 5 :=
  Vector.ofFn fun x => lane A x 0 ^^^ lane A x 1 ^^^ lane A x 2 ^^^ lane A x 3 ^^^ lane A x 4

/-- theta's `D[x] = C[(x+4) mod 5] ^ rotl64(C[(x+1) mod 5], 1)` (R104). -/
def thetaMask (C : Vector Lane 5) : Vector Lane 5 :=
  Vector.ofFn fun x => C[(x.val + 4) % 5] ^^^ rotl64 C[(x.val + 1) % 5] 1

/-- theta (R104): `A'[x,y] = A[x,y] ^ D[x]`. -/
def thetaStep (A : Lanes) : Lanes :=
  Vector.ofFn fun i => A[i] ^^^ (thetaMask (columnParity A))[i.val % 5]

/-- rho (R105): `A'[i] = rotl64(A[i], RHO[i])`. -/
def rhoStep (A : Lanes) : Lanes := Vector.ofFn fun i => rotl64 A[i] rotationOffsets[i]

/-- pi (R103, R106): `A'[x,y] = A[(x+3y) mod 5, x]`, so `PI_SRC[x+5y] = ((x+3y) mod 5) + 5x`. The source's own
formula is superseded (90_conflicts.md C1). -/
def piStep (A : Lanes) : Lanes := lanesOf fun x y => lane A (x + 3 * y) x

/-- chi (R107): `A'[x,y] = A[x,y] ^ ((~A[(x+1) mod 5, y]) & A[(x+2) mod 5, y])`, all lanes of a row read from the
input (90_conflicts.md C2). -/
def chiStep (A : Lanes) : Lanes :=
  lanesOf fun x y => lane A x y ^^^ (~~~ lane A (x + 1) y &&& lane A (x + 2) y)

/-- iota (R108): `A'[0] = A[0] ^ RC[ir]`, every other lane as it was. -/
def iotaStep (A : Lanes) (ir : Fin 24) : Lanes := A.set 0 (A[0] ^^^ roundConstants[ir])

/-- One round (R109): theta, rho, pi, chi, iota in this order. -/
def keccakRound (A : Lanes) (ir : Fin 24) : Lanes :=
  iotaStep (chiStep (piStep (rhoStep (thetaStep A)))) ir

/-- `KeccakF(A)` (R110): `for ir in 0..23: A <- Round(A, ir)`. -/
@[irreducible] def keccakF (A : Lanes) : Lanes := (List.finRange 24).foldl keccakRound A

/-- The little-endian 64-bit word `i` of a block: `le64(B[8i], ..., B[8i+7])` (R53, R113). A block holds exactly
`8·laneCount` bytes (R114), so no index falls past its end. -/
def blockLane (B : List Byte) (i : Nat) : Lane :=
  le64 (B.getD (8 * i) 0) (B.getD (8 * i + 1) 0) (B.getD (8 * i + 2) 0) (B.getD (8 * i + 3) 0)
    (B.getD (8 * i + 4) 0) (B.getD (8 * i + 5) 0) (B.getD (8 * i + 6) 0) (B.getD (8 * i + 7) 0)

/-- The XOR of a block into the first `laneCount` lanes (R113). -/
def xorBlock (A : Lanes) (B : List Byte) (laneCount : Nat) : Lanes :=
  Vector.ofFn fun i => if i.val < laneCount then A[i] ^^^ blockLane B i else A[i]

/-- `AbsorbBlock(B, laneCount)` (R113): XOR the block in, then permute all 25 lanes. -/
def absorbBlock (A : Lanes) (B : List Byte) (laneCount : Nat) : Lanes := keccakF (xorBlock A B laneCount)

end Sys2Proof.Machine
end

