-- ==== Sys2Proof/Machine/Ops.lean ====
section
/-!
DEFINITION. The operations the commands share: taking a fault, answering, the staging buffer's reads and writes,
the session's clearing, and the sponge's absorb, pad and squeeze.
-/

namespace Sys2Proof.Machine

/-- Taking a fault (60_exceptions.md R200): `lastFault <- code`, the one-word fault response, and no other change.
Entry saves nothing, switches no mode and jumps nowhere (R209); no return from it exists or is needed, since the
next command runs normally (R210). -/
def takeFault (op : Byte) (code : FaultCode) (s : State) : State :=
  { s with lastFault := code, portOut := s.portOut ++ [faultWord op code] }

/-- Ending a command with `OK(data)` (30_encoding.md R82, R83): response word 0 and then the data words. -/
def respondOk (op : Byte) (data : List Word) (s : State) : State :=
  { s with portOut := s.portOut ++ okWord op :: data }

/-- What CONFIG and INIT both write (R141, R143): `A`, `buf` and `fill` zero, `fsm` READY. -/
def clearSession (s : State) : State :=
  { s with A := zeroLanes, buf := zeroBuf, fill := 0, fsm := .ready }

/-- `buf[at .. at+|bs|−1] <- bs`, the other cells as they were (R144, R145). -/
def writeBytes (buf : BufferCells) (start : Nat) (bs : List Byte) : BufferCells :=
  Vector.ofFn fun j =>
    if start ≤ j.val ∧ j.val < start + bs.length then bs.getD (j.val - start) 0 else buf[j]

/-- `buf[0 .. n−1]` as a byte sequence. -/
def readBytes (buf : BufferCells) (n : Nat) : List Byte := buf.toList.take n

/-- Step (c) of ABSORB (R144): `while rem >= rate`, absorb a block straight from the input. It answers the lanes and
the bytes left. `fuel` bounds the turns; the input's length is enough, since a turn takes `rate` bytes. -/
def absorbFullBlocks (d : DigestLength) : Nat → Lanes → List Byte → Lanes × List Byte
  | 0, A, input => (A, input)
  | fuel + 1, A, input =>
    if d.rate ≤ input.length then
      absorbFullBlocks d fuel (absorbBlock A (input.take d.rate) d.laneCount) (input.drop d.rate)
    else (A, input)

/-- Steps (a) to (d) of ABSORB on a non-empty input (R144): top up the staging buffer; if it is full, absorb it, then
every full block of the input, and stage what is left. `cur` and `rem` are the part of `input` not yet taken. -/
def absorbBytes (d : DigestLength) (input : List Byte) (s : State) : State :=
  let k := min (d.rate - s.fill) input.length
  let topped := writeBytes s.buf s.fill (input.take k)
  if s.fill + k = d.rate then
    let drained := absorbBlock s.A (readBytes topped d.rate) d.laneCount
    let (lanes, left) := absorbFullBlocks d input.length drained (input.drop k)
    { s with fsm := .absorbing, A := lanes, buf := writeBytes topped 0 left, fill := left.length }
  else
    { s with fsm := .absorbing, buf := topped, fill := s.fill + k }

/-- FINALIZE's padding of the staging buffer (R145): zero `buf[fill .. rate−1]`, assign the delimiter to `buf[fill]`,
then OR 0x80 into `buf[rate−1]`. -/
def padBuffer (d : DigestLength) (K : Bool) (fill : Nat) (buf : BufferCells) : BufferCells :=
  let zeroed := writeBytes buf fill (List.replicate (d.rate - fill) 0)
  let delimited := writeBytes zeroed fill [delimiter K]
  writeBytes delimited (d.rate - 1) [(delimited.toList.getD (d.rate - 1) 0) ||| 0x80]

/-- The digest: `stateBytes(A)[0 .. dlen−1]` (R54, R145). -/
def digestOf (d : DigestLength) (A : Lanes) : List Byte := (stateBytes A).take d.dlen

/-- FINALIZE's writes (R145): the padded buffer absorbed exactly once, `fill` claiming the delimiter's byte
(90_conflicts.md C5), and `fsm` FINALIZED. -/
def finalizeSponge (d : DigestLength) (s : State) : State :=
  let padded := padBuffer d s.K s.fill s.buf
  { s with
    A := absorbBlock s.A (readBytes padded d.rate) d.laneCount
    buf := padded
    fill := s.fill + 1
    fsm := .finalized }

end Sys2Proof.Machine
end

