-- ==== Sys2Proof/Machine/Session.lean ====
section
/-!
DEFINITION. The commands that act on the session and the configuration (41_sponge_commands.md R141, R142, R143,
R146), and what an illegal command word does (R140, 60_exceptions.md R202). A command that faults answers a NEXT
state (R200).
-/

namespace Sys2Proof.Machine

/-- An illegal command word: `raise Fault(ILLEGAL_COMMAND)` before anything else, OPECHO its bits [7:0] (R140, R202). -/
def execIllegal (op : Byte) (s : State) : Host.Outcome State Fault Refusal :=
  .next (takeFault op .illegalCommand s)

/-- CONFIG bitlen (R141). -/
def execConfig (bitlen : BitVec 16) (s : State) : Host.Outcome State Fault Refusal :=
  if s.fsm ≠ .unconfigured then .next (takeFault opConfig .sequence s)
  else
    match digestLengthOf bitlen with
    | none => .next (takeFault opConfig .badDigestLength s)
    | some d => .next (respondOk opConfig [] { clearSession s with cfg := some d })

/-- SETMODE km (R142). -/
def execSetmode (km : Bool) (s : State) : Host.Outcome State Fault Refusal :=
  match s.fsm with
  | .unconfigured => .next (takeFault opSetmode .notConfigured s)
  | .absorbing => .next (takeFault opSetmode .sequence s)
  | .ready | .finalized => .next (respondOk opSetmode [] { s with K := km })

/-- INIT (R143). -/
def execInit (s : State) : Host.Outcome State Fault Refusal :=
  if s.fsm = .unconfigured then .next (takeFault opInit .notConfigured s)
  else .next (respondOk opInit [] (clearSession s))

/-- STATUS (R146): the STATUS register as the one data word. -/
def execStatus (s : State) : Host.Outcome State Fault Refusal :=
  .next (respondOk opStatus [statusWord s] s)

end Sys2Proof.Machine
end

