-- ==== Sys2Proof/Machine/Sponge.lean ====
section
/-!
DEFINITION. The commands that feed and finish the sponge: ABSORB (41_sponge_commands.md R144) and FINALIZE (R145).
The checks stand in the order of 60_exceptions.md R208.
-/

namespace Sys2Proof.Machine

/-- ABSORB offset, length, window (R144). -/
def execAbsorb (offset length : BitVec 32) (window : List Byte) (s : State) : Host.Outcome State Fault Refusal :=
  match s.fsm with
  | .unconfigured => .next (takeFault opAbsorb .notConfigured s)
  | .finalized => .next (takeFault opAbsorb .sequence s)
  | .ready | .absorbing =>
    if rangeOk offset length window.length = false then .next (takeFault opAbsorb .badRange s)
    else
      match s.cfg with
      | none => .fault .noConfiguration
      | some d =>
        if d.rate < s.fill then .fault .fillPastRate
        else if s.fill = d.rate then .next (takeFault opAbsorb .invariant s)
        else if length = 0 then .next (respondOk opAbsorb [] s)
        else .next (respondOk opAbsorb [] (absorbBytes d (absorbInput offset length window) s))

/-- FINALIZE (R145). -/
def execFinalize (s : State) : Host.Outcome State Fault Refusal :=
  match s.fsm with
  | .unconfigured => .next (takeFault opFinalize .notConfigured s)
  | .finalized => .next (takeFault opFinalize .sequence s)
  | .ready | .absorbing =>
    match s.cfg with
    | none => .fault .noConfiguration
    | some d =>
      if d.rate < s.fill then .fault .fillPastRate
      else if s.fill = d.rate then .next (takeFault opFinalize .invariant s)
      else
        .next (respondOk opFinalize (packWords (digestOf d (finalizeSponge d s).A)) (finalizeSponge d s))

end Sys2Proof.Machine
end

