-- ==== Sys2Proof/Machine/Dispatch.lean ====
section
/-!
DEFINITION. One arm per command: the execution frame of 41_sponge_commands.md R140 for a legal command word.
-/

namespace Sys2Proof.Machine

def exec (i : Instr) (s : State) : Host.Outcome State Fault Refusal :=
  match i with
  | .config bitlen => Sys2Proof.Machine.execConfig bitlen s
  | .setmode km => Sys2Proof.Machine.execSetmode km s
  | .init => Sys2Proof.Machine.execInit s
  | .absorb offset length window => Sys2Proof.Machine.execAbsorb offset length window s
  | .finalize => Sys2Proof.Machine.execFinalize s
  | .status => Sys2Proof.Machine.execStatus s

end Sys2Proof.Machine
end

