-- ==== Sys2Proof/Machine/Step.lean ====
section
/-!
DEFINITION. One step of the engine: accept one whole command from the port and execute it (00_scope.md R13,
20_memory.md R59, 70_reset_and_hazards.md R234), and what the host does at the port.
-/

namespace Sys2Proof.Machine

/-- One step. With no whole command at the port the engine is idle, "holds all its state, and does no work"
(60_exceptions.md R218; 30_encoding.md R86): the step changes nothing (log entry 3). -/
def step (s : State) : Host.Outcome State Fault Refusal :=
  match decode s.portIn with
  | .wait => .next s
  | .illegal _ op rest => execIllegal op { s with portIn := rest }
  | .command i rest => exec i { s with portIn := rest }

/-- The host hands words to the port, after those already there. -/
def State.deliver (ws : List Word) (s : State) : State := { s with portIn := s.portIn ++ ws }

/-- `s` with an instruction of the opcode table as the first command at the port, so that the very next step runs it
(log entry 7). -/
def State.withFetchWord (s : State) (nbits w : Nat) : State :=
  { s with portIn := tableWords nbits w ++ s.portIn }

end Sys2Proof.Machine
end

