-- ==== Sys2Proof/Machine/Assembler.lean ====
section
/-!
DEFINITION. The assembler syntax of the command language (30_encoding.md R84) and its two pseudo-instructions (R85):
one line of text to the commands and raw words it stands for. Log entry 8 says what the syntax leaves open.
-/

namespace Sys2Proof.Machine

/-- What a line assembles to: a command, or a word given by `.word`, which may be an illegal command word. -/
inductive AsmItem where
  | command (i : Instr)
  | word (w : Word)
  deriving DecidableEq, Repr

/-- HASH (R85): `INIT` ; `ABSORB 0, |window|, window` ; `FINALIZE`. -/
def hashExpansion (window : List Byte) : List Instr :=
  [.init, .absorb 0 (BitVec.ofNat 32 window.length) window, .finalize]

/-- SETUP (R85): `CONFIG bits` ; `SETMODE sha3|keccak`. -/
def setupExpansion (bitlen : BitVec 16) (km : Bool) : List Instr := [.config bitlen, .setmode km]

/-- The words of an assembled item. -/
def AsmItem.words : AsmItem → List Word
  | .command i => encode i
  | .word w => [w]

def quoteChar : Char := Char.ofNat 34

def isBlankChar (c : Char) : Bool := c = ' ' || c = '\t'

/-- The text without blanks at either end. -/
def trimBlanks (cs : List Char) : List Char :=
  ((cs.dropWhile isBlankChar).reverse.dropWhile isBlankChar).reverse

/-- The text before a comment; a `;` inside a quoted window does not begin one. -/
def dropComment : Bool → List Char → List Char
  | _, [] => []
  | quoted, c :: cs =>
    if c = ';' ∧ quoted = false then []
    else c :: dropComment (if c = quoteChar then !quoted else quoted) cs

/-- The operands: the text cut at the commas outside a quoted window. -/
def splitOperands : Bool → List Char → List Char → List (List Char)
  | _, acc, [] => [trimBlanks acc.reverse]
  | quoted, acc, c :: cs =>
    if c = ',' ∧ quoted = false then trimBlanks acc.reverse :: splitOperands quoted [] cs
    else splitOperands (if c = quoteChar then !quoted else quoted) (c :: acc) cs

/-- The value of a digit, decimal or hexadecimal, in either case. -/
def digitValue (c : Char) : Option Nat :=
  let n := c.toNat
  if 48 ≤ n ∧ n ≤ 57 then some (n - 48)
  else if 97 ≤ n ∧ n ≤ 102 then some (n - 87)
  else if 65 ≤ n ∧ n ≤ 70 then some (n - 55)
  else none

/-- A non-empty number in the given base. -/
def numberIn (base : Nat) (cs : List Char) : Option Nat :=
  if cs.isEmpty then none
  else
    cs.foldl (init := some 0) fun acc c =>
      match acc, digitValue c with
      | some n, some v => if v < base then some (n * base + v) else none
      | _, _ => none

/-- A decimal number that may be negative. -/
def signedDecimal : List Char → Option Int
  | '-' :: cs => (numberIn 10 cs).map fun n => -(n : Int)
  | cs => (numberIn 10 cs).map fun n => (n : Int)

/-- OFFSET or LENGTH: a decimal that 32-bit two's complement holds. -/
def offsetOperand (cs : List Char) : Option (BitVec 32) :=
  (signedDecimal cs).bind fun v =>
    if -2 ^ 31 ≤ v ∧ v < 2 ^ 31 then some (BitVec.ofInt 32 v) else none

/-- BITLEN: decimal 0..65535. -/
def bitlenOperand (cs : List Char) : Option (BitVec 16) :=
  (numberIn 10 cs).bind fun n => if n < 2 ^ 16 then some (BitVec.ofNat 16 n) else none

/-- The keyword `sha3` or `keccak`, in either case. -/
def modeOperand (cs : List Char) : Option Bool :=
  if cs.map Char.toLower = ['s', 'h', 'a', '3'] then some false
  else if cs.map Char.toLower = ['k', 'e', 'c', 'c', 'a', 'k'] then some true
  else none

/-- An even number of hex digits, in byte order. -/
def hexBytes : List Char → Option (List Byte)
  | [] => some []
  | hi :: lo :: cs =>
    (numberIn 16 [hi, lo]).bind fun n => (hexBytes cs).map fun bs => BitVec.ofNat 8 n :: bs
  | [_] => none

/-- The bytes of a quoted string after its opening quote: ASCII characters up to a closing quote that ends the text. -/
def stringBytes : List Char → Option (List Byte)
  | [] => none
  | [c] => if c = quoteChar then some [] else none
  | c :: cs =>
    if c = quoteChar ∨ 128 ≤ c.toNat then none
    else (stringBytes cs).map fun bs => BitVec.ofNat 8 c.toNat :: bs

/-- A `<window>`: a string, `hex:` digits, or `zeros:<n>`, of a size that BUFSIZE holds. -/
def windowOperand (cs : List Char) : Option (List Byte) :=
  let bytes :=
    if cs.head? = some quoteChar then stringBytes cs.tail
    else if (cs.take 4).map Char.toLower = ['h', 'e', 'x', ':'] then hexBytes (cs.drop 4)
    else if (cs.take 6).map Char.toLower = ['z', 'e', 'r', 'o', 's', ':'] then
      (numberIn 10 (cs.drop 6)).map fun n => List.replicate n 0
    else none
  bytes.bind fun bs => if bs.length < 2 ^ 32 then some bs else none

/-- The operand of `.word`: a 32-bit hex number, with or without `0x`. -/
def wordOperand (cs : List Char) : Option Word :=
  let digits := if (cs.take 2).map Char.toLower = ['0', 'x'] then cs.drop 2 else cs
  (numberIn 16 digits).bind fun n => if n < 2 ^ 32 then some (BitVec.ofNat 32 n) else none

/-- One line's mnemonic, in lower case, and its operands. -/
def assembleOp (mnemonic : List Char) (operands : List (List Char)) : Option (List AsmItem) :=
  match operands with
  | [a] =>
    if a = [] then
      if mnemonic = ['i', 'n', 'i', 't'] then some [.command .init]
      else if mnemonic = ['f', 'i', 'n', 'a', 'l', 'i', 'z', 'e'] then some [.command .finalize]
      else if mnemonic = ['s', 't', 'a', 't', 'u', 's'] then some [.command .status]
      else none
    else if mnemonic = ['c', 'o', 'n', 'f', 'i', 'g'] then
      (bitlenOperand a).map fun b => [.command (.config b)]
    else if mnemonic = ['s', 'e', 't', 'm', 'o', 'd', 'e'] then
      (modeOperand a).map fun km => [.command (.setmode km)]
    else if mnemonic = ['.', 'w', 'o', 'r', 'd'] then (wordOperand a).map fun w => [.word w]
    else if mnemonic = ['h', 'a', 's', 'h'] then
      (windowOperand a).bind fun bs =>
        if bs.length < 2 ^ 31 then some ((hashExpansion bs).map .command) else none
    else none
  | [a, b] =>
    if mnemonic = ['s', 'e', 't', 'u', 'p'] then
      (bitlenOperand a).bind fun bits => (modeOperand b).map fun km => (setupExpansion bits km).map .command
    else none
  | [a, b, c] =>
    if mnemonic = ['a', 'b', 's', 'o', 'r', 'b'] then
      (offsetOperand a).bind fun offset => (offsetOperand b).bind fun length =>
        (windowOperand c).map fun bs => [.command (.absorb offset length bs)]
    else none
  | _ => none

/-- One line of assembly (R84): a command, a pseudo-instruction, `.word`, or nothing but a comment; none where the
line is none of these. -/
def assembleLine (line : List Char) : Option (List AsmItem) :=
  let text := trimBlanks (dropComment false line)
  if text = [] then some []
  else
    assembleOp ((text.takeWhile fun c => !isBlankChar c).map Char.toLower)
      (splitOperands false [] (text.dropWhile fun c => !isBlankChar c))

/-- The command words of a program, one command per line (R84). -/
def assemble (lines : List (List Char)) : Option (List Word) :=
  lines.foldr (init := some []) fun line acc =>
    (assembleLine line).bind fun items => acc.map fun words => items.flatMap AsmItem.words ++ words

end Sys2Proof.Machine
end

