-- ==== Sys2Proof/Machine/System.lean ====
section
/-!
DEFINITION. A system of independent engine instances (60_exceptions.md R216, 20_memory.md R66): each has its own
state and its own port, and a step of the system is a step of one of them.
-/

namespace Sys2Proof.Machine

/-- `n` engine instances. -/
abbrev System (n : Nat) := Vector State n

/-- Hardware reset "brings every instance up independently in UNCONFIGURED" (R216). -/
def System.reset : System Config.nInstances := Vector.replicate Config.nInstances State.reset

/-- Instance `k` takes a step; the commands of the other instances' ports stay where they are. -/
def System.stepAt {n : Nat} (k : Fin n) (S : System n) : Host.Outcome (System n) Fault Refusal :=
  match step S[k] with
  | .next t => .next (S.set k t)
  | .fault r => .fault r
  | .refused r => .refused r

end Sys2Proof.Machine
end

