-- ==== Sys2Proof/Safety.lean ====
section
/-!
DEFINITION. The terms claims use: the state invariants of 10_state.md R36, and the sponge construction as a function
of the whole message (41_sponge_commands.md R148, R149), against which the commands are compared.
-/

namespace Sys2Proof.Machine

/-- The state a step or a command answers, if it answers one. -/
def nextState? : Host.Outcome State Fault Refusal → Option State
  | .next s => some s
  | .fault _ => none
  | .refused _ => none

/-- `A` all zero, `buf` all zero and `fill = 0`. -/
abbrev State.Cleared (s : State) : Prop := s.A = zeroLanes ∧ s.buf = zeroBuf ∧ s.fill = 0

/-- The state invariants (R36). Item 7, `lastFault ∈ {0..6}`, holds by `FaultCode`'s names. -/
abbrev State.Inv (s : State) : Prop :=
  (s.cfg = none ↔ s.fsm = .unconfigured) ∧
  (s.fsm = .unconfigured → s.Cleared) ∧
  (s.fsm = .ready → s.Cleared) ∧
  (∀ d ∈ s.cfg, s.fsm = .absorbing → s.fill < d.rate) ∧
  (∀ d ∈ s.cfg, s.fsm = .finalized → 1 ≤ s.fill ∧ s.fill ≤ d.rate) ∧
  (∀ d ∈ s.cfg, ∀ j : Fin 144, d.rate ≤ j.val → s.buf[j] = 0)

/-- The full `rate`-byte blocks of a byte sequence: `M[k·rate .. (k+1)·rate − 1]` for `k < floor(|M|/rate)` (R148). -/
def fullBlocks (rate : Nat) (M : List Byte) : List (List Byte) :=
  (List.range (M.length / rate)).map fun k => (M.drop (k * rate)).take rate

/-- AbsorbBlock on each block in order (R148, R149). -/
def absorbAll (d : DigestLength) (A : Lanes) (blocks : List (List Byte)) : Lanes :=
  blocks.foldl (fun lanes block => absorbBlock lanes block d.laneCount) A

/-- The engine has taken in exactly the message `M` since its session began (the three points of R148). -/
def State.HasAbsorbed (d : DigestLength) (M : List Byte) (s : State) : Prop :=
  s.cfg = some d ∧ (s.fsm = .ready ∨ s.fsm = .absorbing) ∧
  s.A = absorbAll d zeroLanes (fullBlocks d.rate M) ∧
  s.fill = M.length % d.rate ∧
  readBytes s.buf s.fill = M.drop (M.length - M.length % d.rate)

/-- The padding after a message whose last block holds `f` bytes (R149). -/
def messagePad (rate : Nat) (K : Bool) (f : Nat) : List Byte :=
  if f + 2 ≤ rate then delimiter K :: (List.replicate (rate - f - 2) 0 ++ [0x80])
  else [delimiter K ||| 0x80]

/-- The padded message `P = M ++ pad` (R149). -/
def paddedMessage (d : DigestLength) (K : Bool) (M : List Byte) : List Byte :=
  M ++ messagePad d.rate K (M.length % d.rate)

/-- `A_end`: AbsorbBlock applied to each block of the padded message, starting from `A = 0` (R149). -/
def spongeLanes (d : DigestLength) (K : Bool) (M : List Byte) : Lanes :=
  absorbAll d zeroLanes (fullBlocks d.rate (paddedMessage d K M))

/-- The digest of a message (R149): `stateBytes(A_end)[0 .. dlen−1]`. -/
def spongeDigest (d : DigestLength) (K : Bool) (M : List Byte) : List Byte :=
  digestOf d (spongeLanes d K M)

/-- When a cause of 60_exceptions.md R203 to R207 applies to a command in a state. ILLEGAL_COMMAND never does: a
decoded command is legal. -/
def FaultApplies (s : State) (i : Instr) (c : FaultCode) : Prop :=
  match i with
  | .config bitlen =>
    c = .sequence ∧ s.fsm ≠ .unconfigured ∨ c = .badDigestLength ∧ bitlen.toNat ∉ [224, 256, 384, 512]
  | .setmode _ => c = .notConfigured ∧ s.fsm = .unconfigured ∨ c = .sequence ∧ s.fsm = .absorbing
  | .init => c = .notConfigured ∧ s.fsm = .unconfigured
  | .absorb offset length window =>
    c = .notConfigured ∧ s.fsm = .unconfigured ∨ c = .sequence ∧ s.fsm = .finalized ∨
    c = .badRange ∧ (offset.toInt < 0 ∨ length.toInt < 0 ∨ (window.length : Int) < offset.toInt + length.toInt) ∨
    c = .invariant ∧ ∃ d, s.cfg = some d ∧ s.fill = d.rate
  | .finalize =>
    c = .notConfigured ∧ s.fsm = .unconfigured ∨ c = .sequence ∧ s.fsm = .finalized ∨
    c = .invariant ∧ ∃ d, s.cfg = some d ∧ s.fill = d.rate
  | .status => False

/-- Two states that no command can tell apart but through LASTFAULT: everything but `lastFault` and the port's two
streams is the same (the comparison of 41_sponge_commands.md section 2's reset correctness). -/
abbrev State.SameSession (s t : State) : Prop :=
  s.A = t.A ∧ s.cfg = t.cfg ∧ s.buf = t.buf ∧ s.fill = t.fill ∧ s.K = t.K ∧ s.fsm = t.fsm

/-- Two states that differ at most in the stale buffer bytes `buf[fill ..]` and in what they have already sent
(10_state.md R25). -/
abbrev State.SameButStale (s t : State) : Prop :=
  s.A = t.A ∧ s.cfg = t.cfg ∧ s.fill = t.fill ∧ s.K = t.K ∧ s.fsm = t.fsm ∧ s.lastFault = t.lastFault ∧
  s.portIn = t.portIn ∧ ∀ j : Fin 144, j.val < s.fill → s.buf[j] = t.buf[j]

end Sys2Proof.Machine
end

