-- ==== Sys2Proof/Certificates/Slice0/Obligations.lean ====
section
/-!
DEFINITION. The statements for the provers. Each says in its docstring which rule of spec/ it formalises, or, where it
rests on an inference the spec marks as its own or on a choice of the model, says so. In every statement the words at
the port are `portIn`, and a command's response is what it appends to `portOut`: that is how the model holds the port
(log entry 3), while which words they are is the spec's.
-/

open Sys2Proof Sys2Proof.Machine

/-! ## The permutation engine -/

/-- The round constants (R101): bit `2^j − 1` of `RC[ir]` is the output bit `rc(j + 7·ir)` of the LFSR, for `j` from 0 to
6, and every other bit is 0. -/
def Obligations.RoundConstantsAreTheLfsrBits : Prop :=
  ∀ R : Nat → BitVec 8, R 0 = 1 →
    (∀ n, R (n + 1) = (R n <<< 1) ^^^ (if (R n).getLsbD 7 then 0x71 else 0)) →
    ∀ (ir : Fin 24) (k : Nat), k < 64 →
      (roundConstants[ir].getLsbD k = true ↔ ∃ j < 7, k = 2 ^ j - 1 ∧ (R (j + 7 * ir)).getLsbD 0 = true)

/-- theta (40_permutation.md R104): `A'[x,y] = A[x,y] ^ C[x-1] ^ rotl64(C[x+1], 1)` with all parities `C` taken from the
input; zero goes to zero, and the rotation carries bit 63 into bit 0. -/
def Obligations.ThetaXorsNeighbourColumnParities : Prop :=
  (∀ (A : Lanes) (x y : Fin 5),
    let C : Nat → Lane := fun u => lane A u 0 ^^^ lane A u 1 ^^^ lane A u 2 ^^^ lane A u 3 ^^^ lane A u 4
    lane (thetaStep A) x y = lane A x y ^^^ (C (x + 4) ^^^ rotl64 (C (x + 1)) 1)) ∧
  thetaStep zeroLanes = zeroLanes ∧
  ∀ v : Lane, (rotl64 v 1).getLsbD 0 = v.getLsbD 63

/-- theta is linear: an inference the spec draws from the theta rule (40_permutation.md section 3, "theta is linear"). -/
def Obligations.ThetaIsLinear : Prop :=
  ∀ A B : Lanes,
    thetaStep (Vector.ofFn fun i => A[i] ^^^ B[i]) = Vector.ofFn fun i => (thetaStep A)[i] ^^^ (thetaStep B)[i]

/-- rho (R105), bit by bit: bit `k` of lane `i` moves to bit `(k + RHO[i]) mod 64`, lane 0 stays, and the offsets are
those of the walk of R102. -/
def Obligations.RhoMovesEachBitByItsLanesOffset : Prop :=
  (∀ (A : Lanes) (i : Fin 25) (k : Nat), k < 64 →
    (rhoStep A)[i].getLsbD ((k + rotationOffsets[i]) % 64) = A[i].getLsbD k) ∧
  (∀ A : Lanes, (rhoStep A)[0] = A[0]) ∧
  ∀ walk : Nat → Nat × Nat, walk 0 = (1, 0) →
    (∀ n, walk (n + 1) = ((walk n).2, (2 * (walk n).1 + 3 * (walk n).2) % 5)) →
    ∀ t < 24, rotationOffsets[(walk t).1 + 5 * (walk t).2]? = some ((t + 1) * (t + 2) / 2 % 64)

/-- pi (R103, R106): `A'[x,y] = A[(x+3y) mod 5, x]`; equivalently the lane at old position `(x, y)` moves to new
position `(y, (2x + 3y) mod 5)`. -/
def Obligations.PiMovesLanesToTheStandardPositions : Prop :=
  ∀ (A : Lanes) (x y : Fin 5),
    lane (piStep A) x y = lane A (x + 3 * y) x ∧ lane (piStep A) y (2 * x + 3 * y) = lane A x y

/-- chi (R107), bit by bit, every right-hand side read from the input row; the telling row (0,0,0,1,0) gives
(0,1,0,1,0). -/
def Obligations.ChiUpdatesRowsSimultaneously : Prop :=
  (∀ (A : Lanes) (x y : Fin 5) (k : Nat), k < 64 →
    (lane (chiStep A) x y).getLsbD k =
      ((lane A x y).getLsbD k ^^ (!(lane A (x + 1) y).getLsbD k && (lane A (x + 2) y).getLsbD k))) ∧
  ∀ (A : Lanes) (y : Fin 5), lane A 0 y = 0 → lane A 1 y = 0 → lane A 2 y = 0 → lane A 3 y = 1 → lane A 4 y = 0 →
    lane (chiStep A) 0 y = 0 ∧ lane (chiStep A) 1 y = 1 ∧ lane (chiStep A) 2 y = 0 ∧ lane (chiStep A) 3 y = 1 ∧
      lane (chiStep A) 4 y = 0

/-- iota (R108): lane 0 takes the round's constant, lanes 1 to 24 are unchanged. -/
def Obligations.IotaChangesLaneZeroAlone : Prop :=
  ∀ (A : Lanes) (ir : Fin 24),
    (iotaStep A ir)[0] = A[0] ^^^ roundConstants[ir] ∧ ∀ i : Fin 25, i ≠ 0 → (iotaStep A ir)[i] = A[i]

/-- One round as a whole (R109): the five steps in the order theta, rho, pi, chi, iota, read off as one formula over
the input; and on the zero state only the round's constant is left. -/
def Obligations.RoundIsThetaRhoPiChiIota : Prop :=
  (∀ (A : Lanes) (ir : Fin 24) (x y : Fin 5),
    let C : Nat → Lane := fun u => lane A u 0 ^^^ lane A u 1 ^^^ lane A u 2 ^^^ lane A u 3 ^^^ lane A u 4
    let mixed : Nat → Nat → Lane := fun u v =>
      rotl64 (lane A (u + 3 * v) u ^^^ (C (u + 3 * v + 4) ^^^ rotl64 (C (u + 3 * v + 1)) 1))
        (rotationOffsets.toList.getD ((u + 3 * v) % 5 + 5 * (u % 5)) 0)
    lane (keccakRound A ir) x y =
      (mixed x y ^^^ (~~~ mixed (x + 1) y &&& mixed (x + 2) y)) ^^^
        (if x = 0 ∧ y = 0 then roundConstants[ir] else 0)) ∧
  ∀ ir : Fin 24, keccakRound zeroLanes ir = zeroLanes.set 0 roundConstants[ir]

/-- KeccakF (R110, R111): any sequence of 24 rounds from `A` with the round indices 0 to 23 in order ends in
`KeccakF(A)`. -/
def Obligations.KeccakFIsAnySequenceOf24Rounds : Prop :=
  ∀ (A : Lanes) (state : Nat → Lanes), state 0 = A →
    (∀ ir : Fin 24, state (ir + 1) = keccakRound (state ir) ir) → keccakF A = state 24

/-- R112: each step is a bijection on 1600-bit states, so Round and KeccakF are. -/
def Obligations.KeccakFAndItsStepsAreBijections : Prop :=
  Function.Bijective thetaStep ∧ Function.Bijective rhoStep ∧ Function.Bijective piStep ∧
  Function.Bijective chiStep ∧ (∀ ir : Fin 24, Function.Bijective fun A => iotaStep A ir) ∧
  (∀ ir : Fin 24, Function.Bijective fun A => keccakRound A ir) ∧ Function.Bijective keccakF

/-- AbsorbBlock (R113) with the byte map of 20_memory.md R53: block byte `j` is XORed into byte `j mod 8` of lane
`j div 8`, lanes from `laneCount` on are not XORed, and then all 25 lanes are permuted. -/
def Obligations.AbsorbBlockXorsLittleEndianLanesThenPermutes : Prop :=
  ∀ (A : Lanes) (B : List Byte) (laneCount : Nat), laneCount ≤ 25 → B.length = 8 * laneCount →
    ∃ X : Lanes, absorbBlock A B laneCount = keccakF X ∧
      ∀ (i : Fin 25) (k : Nat), k < 8 →
        (∀ b, B[8 * i.val + k]? = some b → laneByte X[i] k = laneByte A[i] k ^^^ b) ∧
        (laneCount ≤ i.val → X[i] = A[i])

/-- The digest (20_memory.md R54) and its data words (30_encoding.md R83): digest byte `j` is byte `j mod 8` of lane
`j div 8`, and byte `j mod 4` of data word `j div 4`; there are `dlen` bytes in `dlen/4` words. -/
def Obligations.DigestWordsAreLittleEndianLaneBytes : Prop :=
  ∀ (d : DigestLength) (A : Lanes),
    (digestOf d A).length = d.dlen ∧ 4 * (packWords (digestOf d A)).length = d.dlen ∧
    ∀ (j : Nat) (hj : j < d.dlen) (h25 : j / 8 < 25),
      (digestOf d A)[j]? = some (laneByte A[j / 8] (j % 8)) ∧
      ((packWords (digestOf d A))[j / 4]?).map (fun w => wordByte w (j % 4)) = some (laneByte A[j / 8] (j % 8))

/-! ## The encoding -/

/-- Decode and encode agree for every well-formed command with every operand at every value, whatever words follow.
Derived: the encoder is the model's own, written from 30_encoding.md sections 1 and 3 (log entry 6). -/
def Obligations.DecodeOfEncodeIsTheCommand : Prop :=
  ∀ (i : Instr) (rest : List Word), i.wellFormed = true → decode (encode i ++ rest) = .command i rest

/-- The other direction: a decoded command is well formed, and the words it was read from are its encoding, but for
the ignored bytes of an ABSORB's last payload word. Derived from 30_encoding.md sections 1 and 2. -/
def Obligations.DecodedWordsAreTheEncodingOfTheCommand : Prop :=
  ∀ (ws rest : List Word) (i : Instr), decode ws = .command i rest →
    i.wellFormed = true ∧
    ∃ used : List Word, ws = used ++ rest ∧ used.length = (encode i).length ∧ used.take 4 = (encode i).take 4 ∧
      ∀ offset length window, i = .absorb offset length window →
        (unpackWords (used.drop 4)).take window.length = window

/-- The opcode map (30_encoding.md R77) with R78 and R79: each match and mask, and every other command word is
illegal; an illegal ABSORB word 0 still takes its whole frame. -/
def Obligations.CommandWordsFollowTheMatchAndMaskTable : Prop :=
  (∀ (w : Word) (rest : List Word), w.extractLsb' 0 8 ≠ 0x04 →
    (w &&& 0x0000FFFF = 0x00000001 → decode (w :: rest) = .command (.config (w.extractLsb' 16 16)) rest) ∧
    (w &&& 0xFFFFFEFF = 0x00000002 → decode (w :: rest) = .command (.setmode (w.getLsbD 8)) rest) ∧
    (w = 0x00000003 → decode (w :: rest) = .command .init rest) ∧
    (w = 0x00000005 → decode (w :: rest) = .command .finalize rest) ∧
    (w = 0x00000006 → decode (w :: rest) = .command .status rest) ∧
    (w &&& 0x0000FFFF ≠ 0x00000001 → w &&& 0xFFFFFEFF ≠ 0x00000002 → w ≠ 0x00000003 → w ≠ 0x00000005 →
      w ≠ 0x00000006 → ∃ why, decode (w :: rest) = .illegal why (w.extractLsb' 0 8) rest)) ∧
  ∀ (w offset length bufSize : Word) (payload rest : List Word), w.extractLsb' 0 8 = 0x04 →
    payload.length = (bufSize.toNat + 3) / 4 →
    (w = 0x00000004 → decode (w :: offset :: length :: bufSize :: (payload ++ rest)) =
      .command (.absorb offset length ((unpackWords payload).take bufSize.toNat)) rest) ∧
    (w ≠ 0x00000004 → ∃ why, decode (w :: offset :: length :: bufSize :: (payload ++ rest)) = .illegal why 0x04 rest)

/-- Framing (30_encoding.md R70, R86): the opcode alone sets the length, so the decoder waits exactly at the end of
the stream and inside an ABSORB's frame of `4 + ceil(BUFSIZE/4)` words; every other opcode takes one word. That an ABSORB word 0
with a reserved bit set waits for its whole frame too is the model's choice (log entry 4). -/
def Obligations.DecoderWaitsExactlyOnTruncatedStreams : Prop :=
  (∀ ws : List Word, decode ws = .wait ↔
    ws = [] ∨ ∃ w0 tail, ws = w0 :: tail ∧ w0.extractLsb' 0 8 = 0x04 ∧
      (tail.length < 3 ∨
        ∃ offset length bufSize more, tail = offset :: length :: bufSize :: more ∧
          more.length < (bufSize.toNat + 3) / 4)) ∧
  ∀ (w0 : Word) (tail : List Word), w0.extractLsb' 0 8 ≠ 0x04 →
    (∃ i, decode (w0 :: tail) = .command i tail) ∨
    ∃ why, decode (w0 :: tail) = .illegal why (w0.extractLsb' 0 8) tail

/-- The payload (30_encoding.md R75): `H[j]` is payload word `j div 4`, byte `j mod 4`, for `0 ≤ j < BUFSIZE`; two
payloads that agree on those bytes carry the same command. -/
def Obligations.PayloadBytesAreTheWindowAndPaddingIsIgnored : Prop :=
  ∀ (offset length bufSize : Word) (payload payload' rest : List Word),
    payload.length = (bufSize.toNat + 3) / 4 → payload'.length = (bufSize.toNat + 3) / 4 →
    (∃ H : List Byte,
      decode (0x00000004 :: offset :: length :: bufSize :: (payload ++ rest)) = .command (.absorb offset length H) rest ∧
      H.length = bufSize.toNat ∧
      ∀ j < bufSize.toNat, H[j]? = (payload[j / 4]?).map fun w => w.extractLsb' (8 * (j % 4)) 8) ∧
    ((∀ j < bufSize.toNat, (payload[j / 4]?).map (fun w => w.extractLsb' (8 * (j % 4)) 8) =
        (payload'[j / 4]?).map fun w => w.extractLsb' (8 * (j % 4)) 8) →
      decode (0x00000004 :: offset :: length :: bufSize :: (payload ++ rest)) =
        decode (0x00000004 :: offset :: length :: bufSize :: (payload' ++ rest)))

/-- A few words written out from the spec's encodings (95_test_vectors.md section 2.6) decode to what they stand for.
A sanity statement. -/
def Obligations.WrittenOutWordsDecode : Prop :=
  decode [0x01000001] = .command (.config 256) [] ∧
  decode [0x00000102] = .command (.setmode true) [] ∧
  decode [0x00000002, 0x00000003] = .command (.setmode false) [0x00000003] ∧
  decode [0x00000003] = .command .init [] ∧
  decode [0x00000004, 0x00000001, 0x00000002, 0x00000003, 0xFF636261] =
    .command (.absorb 1 2 [0x61, 0x62, 0x63]) [] ∧
  decode [0x00000005] = .command .finalize [] ∧
  decode [0x00000006] = .command .status [] ∧
  decode [0x00000007] = .illegal .opcode 0x07 [] ∧
  decode [0x00000106] = .illegal .reservedBits 0x06 []

/-! ## A step -/

/-- A step executes the command at the port: `exec` on the state whose port has moved past the command's words. -/
def Obligations.StepExecutesTheDecodedCommand : Prop :=
  (∀ (s : State) (i : Instr) (rest : List Word), decode s.portIn = .command i rest →
    step s = exec i { s with portIn := rest }) ∧
  ∀ (s : State) (i : Instr) (rest : List Word), i.wellFormed = true → s.portIn = encode i ++ rest →
    step s = exec i { s with portIn := rest }

/-- ILLEGAL_COMMAND (60_exceptions.md R202, with 30_encoding.md R78, R79): a word whose OP is none of 0x01 to 0x06, or
with a reserved bit set, changes `lastFault` alone, is consumed with its frame, and is answered `0x300 | op`. -/
def Obligations.IllegalCommandWordsFault : Prop :=
  (∀ (s : State) (w : Word) (rest : List Word), s.portIn = w :: rest →
    ((w.extractLsb' 0 8 = 0x00 ∨ 0x07 ≤ (w.extractLsb' 0 8).toNat) ∨
      (w.extractLsb' 0 8 = 0x01 ∧ w.extractLsb' 8 8 ≠ 0) ∨
      (w.extractLsb' 0 8 = 0x02 ∧ w.extractLsb' 9 23 ≠ 0) ∨
      ((w.extractLsb' 0 8 = 0x03 ∨ w.extractLsb' 0 8 = 0x05 ∨ w.extractLsb' 0 8 = 0x06) ∧ w.extractLsb' 8 24 ≠ 0)) →
    step s = .next { s with
      portIn := rest, lastFault := .illegalCommand, portOut := s.portOut ++ [0x00000300 ||| (w &&& 0x000000FF)] }) ∧
  ∀ (s : State) (w offset length bufSize : Word) (payload rest : List Word),
    s.portIn = w :: offset :: length :: bufSize :: (payload ++ rest) → payload.length = (bufSize.toNat + 3) / 4 →
    w.extractLsb' 0 8 = 0x04 → w.extractLsb' 8 24 ≠ 0 →
    step s = .next { s with
      portIn := rest, lastFault := .illegalCommand, portOut := s.portOut ++ [0x00000304] }

/-- The engine waits for the rest of a truncated ABSORB, and is idle when nothing is at the port: a step changes
nothing. Derived from 30_encoding.md section 6's last rule and 60_exceptions.md section 4. Two clauses are the model's
choice: that waiting is a step that changes nothing (log entry 3), and that an ABSORB word 0 with a reserved bit set,
which the last two clauses take in as well, waits for its whole frame (log entry 4). -/
def Obligations.EngineWaitsWithoutAWholeCommand : Prop :=
  (∀ s : State, s.portIn = [] → step s = .next s) ∧
  (∀ (s : State) (w0 : Word) (tail : List Word), s.portIn = w0 :: tail → w0.extractLsb' 0 8 = 0x04 →
    tail.length < 3 → step s = .next s) ∧
  ∀ (s : State) (w0 offset length bufSize : Word) (more : List Word),
    s.portIn = w0 :: offset :: length :: bufSize :: more → w0.extractLsb' 0 8 = 0x04 →
    more.length < (bufSize.toNat + 3) / 4 → step s = .next s

/-! ## The commands -/

/-- CONFIG (41_sponge_commands.md R141): the word of format C, the construction, and its two faults; nothing else
changes. -/
def Obligations.ConfigConstructsOrFaults : Prop :=
  (∀ (b : BitVec 16) (rest : List Word), decode ((b ++ (0x0001 : BitVec 16)) :: rest) = .command (.config b) rest) ∧
  (∀ (b : BitVec 16) (s : State) (d : DigestLength), s.fsm = .unconfigured → b.toNat = d.bits →
    exec (.config b) s = .next { s with
      cfg := some d, A := zeroLanes, buf := zeroBuf, fill := 0, fsm := .ready,
      portOut := s.portOut ++ [0x00000001] } ∧
    d.rate = (1600 - 2 * b.toNat) / 8 ∧ d.dlen = b.toNat / 8) ∧
  (∀ (b : BitVec 16) (s : State), s.fsm = .unconfigured → b.toNat ∉ [224, 256, 384, 512] →
    exec (.config b) s = .next { s with
      lastFault := .badDigestLength, portOut := s.portOut ++ [0x00000901] }) ∧
  (∀ (b : BitVec 16) (s : State), s.fsm ≠ .unconfigured →
    exec (.config b) s = .next { s with lastFault := .sequence, portOut := s.portOut ++ [0x00000701] }) ∧
  ∀ b : BitVec 16, b.toNat ∈ [224, 256, 384, 512] → ∃ d : DigestLength, b.toNat = d.bits

/-- SETMODE (R142): `K` takes KM in READY and FINALIZED; NOT_CONFIGURED before CONFIG and SEQUENCE in ABSORBING. -/
def Obligations.SetmodeWritesThePaddingModeOrFaults : Prop :=
  (∀ (km : Bool) (rest : List Word),
    decode ((if km then 0x00000102 else 0x00000002) :: rest) = .command (.setmode km) rest) ∧
  (∀ (km : Bool) (s : State), s.fsm = .ready ∨ s.fsm = .finalized →
    exec (.setmode km) s = .next { s with K := km, portOut := s.portOut ++ [0x00000002] }) ∧
  (∀ (km : Bool) (s : State), s.fsm = .unconfigured →
    exec (.setmode km) s = .next { s with lastFault := .notConfigured, portOut := s.portOut ++ [0x00000502] }) ∧
  ∀ (km : Bool) (s : State), s.fsm = .absorbing →
    exec (.setmode km) s = .next { s with lastFault := .sequence, portOut := s.portOut ++ [0x00000702] }

/-- INIT (R143): the session reset in every configured state, NOT_CONFIGURED before. -/
def Obligations.InitClearsTheSessionOrFaults : Prop :=
  (∀ rest : List Word, decode (0x00000003 :: rest) = .command .init rest) ∧
  (∀ s : State, s.fsm ≠ .unconfigured →
    exec .init s = .next { s with
      A := zeroLanes, buf := zeroBuf, fill := 0, fsm := .ready, portOut := s.portOut ++ [0x00000003] }) ∧
  ∀ s : State, s.fsm = .unconfigured →
    exec .init s = .next { s with lastFault := .notConfigured, portOut := s.portOut ++ [0x00000503] }

/-- ABSORB (R144) with its faults in their order (60_exceptions.md R206, R207): NOT_CONFIGURED, SEQUENCE, BAD_RANGE over
unbounded integers, INVARIANT; the no-op for LENGTH = 0; and steps (a) to (d): the staged bytes and the input are
absorbed block by block, the bytes after the last whole block are staged, and every other cell and element stays. -/
def Obligations.AbsorbTakesInTheInputOrFaults : Prop :=
  (∀ (offset length bufSize : Word) (payload rest : List Word), payload.length = (bufSize.toNat + 3) / 4 →
    decode (0x00000004 :: offset :: length :: bufSize :: (payload ++ rest)) =
      .command (.absorb offset length ((unpackWords payload).take bufSize.toNat)) rest) ∧
  (∀ (offset length : BitVec 32) (window : List Byte) (s : State), s.fsm = .unconfigured →
    exec (.absorb offset length window) s =
      .next { s with lastFault := .notConfigured, portOut := s.portOut ++ [0x00000504] }) ∧
  (∀ (offset length : BitVec 32) (window : List Byte) (s : State), s.fsm = .finalized →
    exec (.absorb offset length window) s =
      .next { s with lastFault := .sequence, portOut := s.portOut ++ [0x00000704] }) ∧
  (∀ (offset length : BitVec 32) (window : List Byte) (s : State), s.fsm = .ready ∨ s.fsm = .absorbing →
    offset.toInt < 0 ∨ length.toInt < 0 ∨ (window.length : Int) < offset.toInt + length.toInt →
    exec (.absorb offset length window) s =
      .next { s with lastFault := .badRange, portOut := s.portOut ++ [0x00000B04] }) ∧
  ∀ (offset length : BitVec 32) (window : List Byte) (s : State) (d : DigestLength),
    s.fsm = .ready ∨ s.fsm = .absorbing → s.cfg = some d →
    0 ≤ offset.toInt → 0 ≤ length.toInt → offset.toInt + length.toInt ≤ (window.length : Int) →
    (s.fill = d.rate → exec (.absorb offset length window) s =
      .next { s with lastFault := .invariant, portOut := s.portOut ++ [0x00000D04] }) ∧
    (s.fill < d.rate → length = 0 →
      exec (.absorb offset length window) s = .next { s with portOut := s.portOut ++ [0x00000004] }) ∧
    (s.fill < d.rate → length ≠ 0 →
      let input := (window.drop offset.toInt.toNat).take length.toInt.toNat
      let bytes := readBytes s.buf s.fill ++ input
      let total := s.fill + length.toInt.toNat
      exec (.absorb offset length window) s = .next { s with
        fsm := .absorbing
        A := absorbAll d s.A (fullBlocks d.rate bytes)
        fill := total % d.rate
        buf := Vector.ofFn fun j =>
          if total < d.rate then (if s.fill ≤ j.val ∧ j.val < total then bytes.getD j.val 0 else s.buf[j])
          else if j.val < total % d.rate then bytes.getD (total - total % d.rate + j.val) 0
          else if s.fill ≤ j.val ∧ j.val < d.rate then bytes.getD j.val 0
          else s.buf[j]
        portOut := s.portOut ++ [0x00000004] })

/-- FINALIZE (R145): the tail zeroed, the delimiter assigned, 0x80 ORed into the last byte of the block, the block
absorbed exactly once, and the first `dlen` bytes of the state returned; with its three faults. -/
def Obligations.FinalizePadsAbsorbsOnceAndAnswersOrFaults : Prop :=
  (∀ rest : List Word, decode (0x00000005 :: rest) = .command .finalize rest) ∧
  (∀ s : State, s.fsm = .unconfigured →
    exec .finalize s = .next { s with lastFault := .notConfigured, portOut := s.portOut ++ [0x00000505] }) ∧
  (∀ s : State, s.fsm = .finalized →
    exec .finalize s = .next { s with lastFault := .sequence, portOut := s.portOut ++ [0x00000705] }) ∧
  ∀ (s : State) (d : DigestLength), s.fsm = .ready ∨ s.fsm = .absorbing → s.cfg = some d →
    (s.fill = d.rate →
      exec .finalize s = .next { s with lastFault := .invariant, portOut := s.portOut ++ [0x00000D05] }) ∧
    (s.fill < d.rate →
      let lastByte : Byte := if s.fill = d.rate - 1 then (if s.K then 0x01 else 0x06) else 0x00
      let block : List Byte := (List.range d.rate).map fun j =>
        if j = d.rate - 1 then lastByte ||| 0x80
        else if j < s.fill then s.buf.toList.getD j 0
        else if j = s.fill then (if s.K then 0x01 else 0x06)
        else 0x00
      let lanes := absorbBlock s.A block d.laneCount
      exec .finalize s = .next { s with
        A := lanes
        buf := Vector.ofFn fun j => if j.val < d.rate then block.getD j.val 0 else s.buf[j]
        fill := s.fill + 1
        fsm := .finalized
        portOut := s.portOut ++ 0x00000005 :: packWords ((stateBytes lanes).take d.dlen) })

/-- STATUS (R146): accepted in every state, changes no state, and answers the STATUS register, which is R30's formula
for every `fill` that R30 calls legal. -/
def Obligations.StatusAnswersTheStatusRegister : Prop :=
  (∀ rest : List Word, decode (0x00000006 :: rest) = .command .status rest) ∧
  ∀ s : State,
    exec .status s = .next { s with portOut := s.portOut ++ [0x00000006, statusWord s] } ∧
    (s.fill ≤ 144 →
      statusWord s = BitVec.ofNat 32
        (s.fsm.code.toNat ||| (s.K.toNat <<< 2) ||| (s.lastFault.code.toNat <<< 4) ||| (s.fill <<< 8) |||
          ((match s.cfg with | none => 0 | some d => d.rate) <<< 16) |||
          ((match s.cfg with | none => 0 | some d => d.dlen) <<< 24)))

/-- The layout of STATUS (10_state.md R30): each field is a view of the state element named, reserved bits read 0. -/
def Obligations.StatusFieldsAreViewsOfTheState : Prop :=
  ∀ s : State, s.fill ≤ 144 →
    (statusWord s).extractLsb' 0 2 =
      (match s.fsm with | .unconfigured => 0 | .ready => 1 | .absorbing => 2 | .finalized => 3) ∧
    (statusWord s).getLsbD 2 = s.K ∧ (statusWord s).getLsbD 3 = false ∧
    (statusWord s).extractLsb' 4 3 = s.lastFault.code ∧ (statusWord s).getLsbD 7 = false ∧
    ((statusWord s).extractLsb' 8 8).toNat = s.fill ∧
    ((statusWord s).extractLsb' 16 8).toNat = (match s.cfg with | none => 0 | some d => d.rate) ∧
    ((statusWord s).extractLsb' 24 8).toNat = (match s.cfg with | none => 0 | some d => d.dlen)

/-! ## Faults and responses -/

/-- The first cause in R208's order is the one reported (60_exceptions.md R203 to R207 say when each applies):
ILLEGAL_COMMAND before anything else, then the others; and with no cause the command succeeds. The premises are the
two invariants without which the spec gives ABSORB and FINALIZE no rate to compare with (10_state.md R26, R36). -/
def Obligations.FirstApplicableFaultIsReported : Prop :=
  (∀ (s : State) (why : IllegalReason) (op : Byte) (rest : List Word), decode s.portIn = .illegal why op rest →
    step s = .next { s with
      portIn := rest, lastFault := .illegalCommand, portOut := s.portOut ++ [responseWord 1 true op] }) ∧
  ∀ (i : Instr) (s : State), (s.cfg = none ↔ s.fsm = .unconfigured) → (∀ d ∈ s.cfg, s.fill ≤ d.rate) →
    (∀ (before after : List FaultCode) (c : FaultCode),
      [FaultCode.illegalCommand, .notConfigured, .sequence, .badDigestLength, .badRange, .invariant] =
        before ++ c :: after →
      (∀ b ∈ before, ¬ FaultApplies s i b) → FaultApplies s i c →
      exec i s = .next { s with
        lastFault := c, portOut := s.portOut ++ [responseWord c.code true i.opcode] }) ∧
    ((∀ c, ¬ FaultApplies s i c) →
      ∃ t data, exec i s = .next t ∧ t.lastFault = s.lastFault ∧
        t.portOut = s.portOut ++ responseWord 0 false i.opcode :: data)

/-- Every command gets exactly one response, laid out as 30_encoding.md R82 says, an illegal one too; a fault changes
`lastFault` alone (60_exceptions.md R200), and a success never writes it (10_state.md R29). -/
def Obligations.EveryCommandGetsOneResponse : Prop :=
  (∀ (s : State) (why : IllegalReason) (op : Byte) (rest : List Word), decode s.portIn = .illegal why op rest →
    ∃ r : Word,
      step s = .next { s with
        portIn := rest, lastFault := .illegalCommand, portOut := s.portOut ++ [r] } ∧
      r.extractLsb' 0 8 = op ∧ r.getLsbD 8 = true ∧ r.extractLsb' 9 3 = 1 ∧ r.extractLsb' 12 20 = 0) ∧
  ∀ (i : Instr) (s t : State), exec i s = .next t →
    ∃ (r : Word) (data : List Word), t.portOut = s.portOut ++ r :: data ∧
      r.extractLsb' 0 8 = i.opcode ∧ r.extractLsb' 12 20 = 0 ∧
      (r.getLsbD 8 = true →
        data = [] ∧ r.extractLsb' 9 3 = t.lastFault.code ∧ t.lastFault ≠ .noFault ∧
        t = { s with lastFault := t.lastFault, portOut := t.portOut }) ∧
      (r.getLsbD 8 = false →
        r.extractLsb' 9 3 = 0 ∧ t.lastFault = s.lastFault ∧
        data.length =
          match i with
          | .finalize => (match s.cfg with | none => 0 | some d => d.dlen / 4)
          | .status => 1
          | .config _ | .setmode _ | .init | .absorb _ _ _ => 0)

/-- The session transition table, an inference the spec draws from the command rules (41_sponge_commands.md
section 2): the state after every command that answers. -/
def Obligations.SessionTransitionsFollowTheTable : Prop :=
  ∀ (i : Instr) (s t : State), s.Inv → exec i s = .next t →
    t.fsm =
      match i, s.fsm with
      | .config b, .unconfigured => if b.toNat ∈ [224, 256, 384, 512] then .ready else .unconfigured
      | .config _, f => f
      | .setmode _, f => f
      | .init, .unconfigured => .unconfigured
      | .init, _ => .ready
      | .absorb offset length window, .ready =>
        if 0 ≤ offset.toInt ∧ 0 < length.toInt ∧ offset.toInt + length.toInt ≤ (window.length : Int)
        then .absorbing else .ready
      | .absorb _ _ _, f => f
      | .finalize, .unconfigured => .unconfigured
      | .finalize, _ => .finalized
      | .status, f => f

/-! ## Reset and the invariants -/

/-- Hardware reset (10_state.md R35, 70_reset_and_hazards.md R230): every state element at its value, `K` at the
parameter `resetKeccakPadding`, for either value of it. -/
def Obligations.HardwareResetLeavesTheSpecifiedValues : Prop :=
  (∀ k : Bool,
    (∀ i : Fin 25, (State.resetWith k).A[i] = 0) ∧ (State.resetWith k).cfg = none ∧
    (∀ j : Fin 144, (State.resetWith k).buf[j] = 0) ∧ (State.resetWith k).fill = 0 ∧
    (State.resetWith k).K = k ∧ (State.resetWith k).fsm = .unconfigured ∧
    (State.resetWith k).lastFault = .noFault ∧
    statusWord (State.resetWith k) = if k then 0x00000004 else 0x00000000) ∧
  State.reset = State.resetWith Config.resetKeccakPadding

/-- The invariants the spec infers (10_state.md section 8) hold at hardware reset. -/
def Obligations.ResetMeetsTheInvariants : Prop :=
  State.reset.Inv ∧ ∀ k : Bool, (State.resetWith k).Inv

/-- Every step keeps the invariants the spec infers (10_state.md section 8), from every state that has them. -/
def Obligations.StepKeepsTheInvariants : Prop :=
  ∀ s t : State, s.Inv → step s = .next t → t.Inv

/-- Under the invariants a step always answers a next state: the model's own stops (log entry 5) are never taken, and
no command halts the engine. Derived from 41_sponge_commands.md section 2 and 60_exceptions.md section 1. -/
def Obligations.StepAlwaysAnswersUnderTheInvariants : Prop :=
  ∀ s : State, s.Inv → ∃ t, step s = .next t

/-- Whatever words a host sends to an engine fresh from hardware reset, any number of steps runs without a stop and
keeps the invariants. Derived from 10_state.md section 8. -/
def Obligations.NoHostStreamStopsTheEngine : Prop :=
  ∀ (k : Bool) (ws : List Word) (n : Nat),
    ∃ t, Sys2Proof.core.run n ((State.resetWith k).deliver ws) = .next t ∧ State.Inv t

/-- INVARIANT is never raised (an inference of the spec, 41_sponge_commands.md section 2): no step from a state with
the invariants writes code 6. -/
def Obligations.InvariantFaultIsUnreachable : Prop :=
  ∀ s t : State, s.Inv → step s = .next t → t.lastFault = .invariant → s.lastFault = .invariant

/-! ## Whole-machine rules -/

/-- Only SETMODE writes `K` (10_state.md R27); FINALIZE, CONFIG, INIT and every other step leave it. -/
def Obligations.OnlySetmodeWritesThePaddingMode : Prop :=
  ∀ s t : State, step s = .next t →
    t.K = s.K ∨ ∃ km rest, decode s.portIn = .command (.setmode km) rest ∧ t.K = km

/-- `cfg` (10_state.md R23): NONE at reset, or one of the four triples `(bits, rate, dlen)`; only CONFIG writes it, and
only from NONE; once configured an instance keeps its digest length for life. The premise of the last two clauses is the
invariant that a configured engine is not UNCONFIGURED, and the others of 10_state.md section 8. -/
def Obligations.ConfigurationIsFixedForLife : Prop :=
  (∀ k : Bool, (State.resetWith k).cfg = none) ∧
  (∀ d : DigestLength, (d.bits, d.rate, d.dlen) ∈ [(224, 144, 28), (256, 136, 32), (384, 104, 48), (512, 72, 64)]) ∧
  (∀ s t : State, s.Inv → step s = .next t →
    t.cfg = s.cfg ∨
      ∃ b rest d, decode s.portIn = .command (.config b) rest ∧ s.cfg = none ∧ b.toNat = d.bits ∧
        t.cfg = some d) ∧
  ∀ (n : Nat) (s t : State) (d : DigestLength), s.Inv → s.cfg = some d →
    Sys2Proof.core.run n s = .next t → State.cfg t = some d

/-- Only two operations change the lanes (10_state.md R21): AbsorbBlock on whole `rate`-byte blocks, by ABSORB and
FINALIZE (FINALIZE exactly one), and the clearing by CONFIG and INIT. -/
def Obligations.LanesChangeOnlyByAbsorbBlockOrClearing : Prop :=
  ∀ s t : State, step s = .next t →
    t.A = s.A ∨
    (t.A = zeroLanes ∧ ∃ i rest, decode s.portIn = .command i rest ∧ (i = .init ∨ ∃ b, i = .config b)) ∨
    ∃ i rest d blocks, decode s.portIn = .command i rest ∧ s.cfg = some d ∧
      (i = .finalize ∧ blocks.length = 1 ∨
        ∃ offset length window, i = .absorb offset length window ∧
          blocks.length = (s.fill + length.toInt.toNat) / d.rate) ∧
      (∀ B ∈ blocks, B.length = d.rate) ∧ t.A = absorbAll d s.A blocks

/-- Instances share no state (20_memory.md R66): a command to one leaves every other as it is, and commands to
different instances may be taken in either order. -/
def Obligations.InstancesDoNotInterfere : Prop :=
  ∀ (n : Nat) (S : System n) (j k : Fin n), j ≠ k →
    (∀ T : System n, System.stepAt k S = .next T → T[j] = S[j] ∧ step S[k] = .next T[k]) ∧
    ∀ s t : State, step S[j] = .next s → step S[k] = .next t →
      ∃ T₁ T₂ T : System n, System.stepAt j S = .next T₁ ∧ System.stepAt k T₁ = .next T ∧
        System.stepAt k S = .next T₂ ∧ System.stepAt j T₂ = .next T ∧ T[j] = s ∧ T[k] = t

/-- Stale bytes `buf[fill ..]` are unobservable (10_state.md R25): states that differ in them alone answer every command
alike and differ in nothing else afterwards. -/
def Obligations.StaleBufferBytesAreUnobservable : Prop :=
  ∀ (i : Instr) (s t s' : State), s.SameButStale t → exec i s = .next s' →
    ∃ t' response, exec i t = .next t' ∧ s'.SameButStale t' ∧
      s'.portOut = s.portOut ++ response ∧ t'.portOut = t.portOut ++ response

/-- Reset correctness, an inference of the spec (41_sponge_commands.md section 2): after INIT the engine is in the same
session state as a fresh instance with the same `K` just after CONFIG with the same digest length, and from two states
in the same session state every command but STATUS gets the same response and leaves the same session state; STATUS
words agree outside LASTFAULT. -/
def Obligations.InitIsAsGoodAsAFreshInstance : Prop :=
  (∀ (s : State) (d : DigestLength), s.fsm ≠ .unconfigured → s.cfg = some d →
    ∃ t u, exec .init s = .next t ∧
      exec (.config (BitVec.ofNat 16 d.bits)) (State.resetWith s.K) = .next u ∧ t.SameSession u) ∧
  ∀ (i : Instr) (s t s' : State), s.SameSession t → exec i s = .next s' →
    ∃ t' answer answer', exec i t = .next t' ∧ s'.SameSession t' ∧
      s'.portOut = s.portOut ++ answer ∧ t'.portOut = t.portOut ++ answer' ∧
      (i ≠ .status → answer = answer') ∧
      (i = .status → ∃ w w', answer = [0x00000006, w] ∧ answer' = [0x00000006, w'] ∧
        w &&& 0xFFFFFF8F = w' &&& 0xFFFFFF8F)

/-! ## The sponge -/

/-- The absorb law, an inference of the spec (41_sponge_commands.md section 2): CONFIG and INIT begin the empty message,
and a successful ABSORB appends its input to the message, however it was split before. -/
def Obligations.AbsorbExtendsTheMessage : Prop :=
  (∀ (b : BitVec 16) (s : State) (d : DigestLength), s.fsm = .unconfigured → b.toNat = d.bits →
    ∃ t, exec (.config b) s = .next t ∧ t.HasAbsorbed d []) ∧
  (∀ (s : State) (d : DigestLength), s.fsm ≠ .unconfigured → s.cfg = some d →
    ∃ t, exec .init s = .next t ∧ t.HasAbsorbed d []) ∧
  ∀ (offset length : BitVec 32) (window M : List Byte) (s : State) (d : DigestLength), s.HasAbsorbed d M →
    0 ≤ offset.toInt → 0 ≤ length.toInt → offset.toInt + length.toInt ≤ (window.length : Int) →
    ∃ t, exec (.absorb offset length window) s = .next t ∧
      t.HasAbsorbed d (M ++ (window.drop offset.toInt.toNat).take length.toInt.toNat)

/-- The sponge law, an inference of the spec (41_sponge_commands.md section 2): FINALIZE answers the digest of the
padded message, whose lanes are the state after every block of it. -/
def Obligations.FinalizeAnswersTheSpongeDigest : Prop :=
  ∀ (M : List Byte) (s : State) (d : DigestLength), s.HasAbsorbed d M →
    ∃ t, exec .finalize s = .next t ∧ t.A = spongeLanes d s.K M ∧ t.fsm = .finalized ∧
      t.fill = M.length % d.rate + 1 ∧
      t.portOut = s.portOut ++ 0x00000005 :: packWords (spongeDigest d s.K M) ∧
      (paddedMessage d s.K M).length = (M.length / d.rate + 1) * d.rate

/-- A whole session at the port: a message sent in any number of ABSORB commands of any sizes, then FINALIZE, answers
the digest of the message, from every cleared READY state. Derived from 41_sponge_commands.md section 2. -/
def Obligations.ChunkedSessionAnswersTheDigestOfTheWhole : Prop :=
  ∀ (chunks : List (List Byte)) (s : State) (d : DigestLength) (rest : List Word),
    s.fsm = .ready → s.cfg = some d → s.Cleared → (∀ c ∈ chunks, c.length < 2 ^ 31) →
    s.portIn = chunks.flatMap (fun c => encode (.absorb 0 (BitVec.ofNat 32 c.length) c)) ++ encode .finalize ++ rest →
    ∃ t : State, Sys2Proof.core.run (chunks.length + 1) s = .next t ∧
      t.portOut = s.portOut ++ List.replicate chunks.length 0x00000004 ++
        0x00000005 :: packWords (spongeDigest d s.K chunks.flatten) ∧
      t.portIn = rest ∧ t.fsm = .finalized ∧ t.lastFault = s.lastFault

/-- The pseudo-instruction HASH (30_encoding.md section 6) from any configured state: its three commands answer the
digest of the window, whatever the session was. Derived; the window is one that LENGTH can count. -/
def Obligations.HashAnswersTheDigestOfItsWindow : Prop :=
  ∀ (window : List Byte) (s : State) (d : DigestLength) (rest : List Word),
    s.fsm ≠ .unconfigured → s.cfg = some d → window.length < 2 ^ 31 →
    s.portIn = (hashExpansion window).flatMap encode ++ rest →
    ∃ t : State, Sys2Proof.core.run 3 s = .next t ∧ t.portIn = rest ∧
      t.portOut = s.portOut ++ 0x00000003 :: 0x00000004 :: 0x00000005 :: packWords (spongeDigest d s.K window)

/-- The pseudo-instruction SETUP (30_encoding.md section 6) on a fresh instance makes the parameter
`resetKeccakPadding` immaterial. Derived from 70_reset_and_hazards.md section 1. -/
def Obligations.SetupFixesModeAndLengthWhateverTheResetMode : Prop :=
  ∀ (k km : Bool) (d : DigestLength) (rest : List Word),
    ∃ t : State, Sys2Proof.core.run 2
        ((State.resetWith k).deliver ((setupExpansion (BitVec.ofNat 16 d.bits) km).flatMap encode ++ rest)) = .next t ∧
      t = { State.resetWith km with
        cfg := some d, fsm := .ready, portIn := rest, portOut := [0x00000001, 0x00000002] }

/-- The empty message, an inference of the spec (41_sponge_commands.md section 2): FINALIZE from a cleared READY state
permutes the state with `A0[0] = d`, `A0[rate/8 − 1] = 0x8000000000000000` and every other lane 0, once. -/
def Obligations.EmptyMessagePermutesOnePaddedBlock : Prop :=
  ∀ (s : State) (d : DigestLength), s.fsm = .ready → s.cfg = some d → s.Cleared →
    ∃ t, exec .finalize s = .next t ∧
      t.A = keccakF (Vector.ofFn fun i =>
        if i.val = 0 then (if s.K then 0x01 else 0x06)
        else if i.val = d.rate / 8 - 1 then 0x8000000000000000 else 0) ∧
      t.portOut = s.portOut ++ 0x00000005 :: packWords ((stateBytes t.A).take d.dlen)

/-- Padding-mode distinction, an inference of the spec (41_sponge_commands.md section 2): for the same message the two
padded messages differ in exactly the byte at index `n`, and the two end states differ. -/
def Obligations.PaddingModesDifferInOneByteAndInTheEndState : Prop :=
  ∀ (d : DigestLength) (M : List Byte),
    (paddedMessage d true M).length = (paddedMessage d false M).length ∧
    (∀ j : Nat, (paddedMessage d true M)[j]? ≠ (paddedMessage d false M)[j]? ↔ j = M.length) ∧
    spongeLanes d true M ≠ spongeLanes d false M
end

