-- ==== Sys2Proof/Laws/Buffer.lean ====
section
/-!
SUPPORT. The staging buffer's reads and writes, and the sizes the configuration fixes.
-/

namespace Sys2Proof.Machine

theorem DigestLength.rate_le (d : DigestLength) : d.rate ≤ 144 := by cases d <;> decide

theorem DigestLength.le_rate (d : DigestLength) : 72 ≤ d.rate := by cases d <;> decide

theorem DigestLength.rate_pos (d : DigestLength) : 0 < d.rate := by cases d <;> decide

theorem DigestLength.eight_mul_laneCount (d : DigestLength) : 8 * d.laneCount = d.rate := by cases d <;> decide

/-- "`dlen < rate` holds for every configuration" (10_state.md R24). -/
theorem DigestLength.dlen_lt_rate (d : DigestLength) : d.dlen < d.rate := by cases d <;> decide

theorem DigestLength.four_dvd_dlen (d : DigestLength) : 4 * (d.dlen / 4) = d.dlen := by cases d <;> decide

/-- BITLEN is accepted exactly where it is the `bits` of a digest length (60_exceptions.md R205). -/
theorem digestLengthOf_eq_some {b : BitVec 16} {d : DigestLength} : digestLengthOf b = some d ↔ b.toNat = d.bits := by
  unfold digestLengthOf
  repeat' split
  all_goals cases d <;> simp_all [DigestLength.bits]

theorem digestLengthOf_eq_none {b : BitVec 16} : digestLengthOf b = none ↔ ∀ d : DigestLength, b.toNat ≠ d.bits := by
  rw [Option.eq_none_iff_forall_not_mem]
  exact forall_congr' fun d => not_congr digestLengthOf_eq_some

/-- What a cell holds after a write to the buffer. -/
theorem getElem_writeBytes (buf : BufferCells) (start : Nat) (bs : List Byte) (j : Nat) (hj : j < 144) :
    (writeBytes buf start bs)[j] =
      if start ≤ j ∧ j < start + bs.length then bs.getD (j - start) 0 else buf[j] := by
  simp [writeBytes]

theorem writeBytes_nil (buf : BufferCells) (start : Nat) : writeBytes buf start [] = buf := by
  apply Vector.ext
  intro j hj
  rw [getElem_writeBytes, if_neg (by simp)]

theorem length_readBytes {buf : BufferCells} {n : Nat} (h : n ≤ 144) : (readBytes buf n).length = n := by
  simp [readBytes, h]

theorem getElem?_readBytes {buf : BufferCells} {n j : Nat} (hj : j < n) (hn : n ≤ 144) :
    (readBytes buf n)[j]? = some (buf[j]'(by omega)) := by
  have h : j < 144 := by omega
  simp [readBytes, hj, h]

/-- Two buffers that agree below `n` read alike. -/
theorem readBytes_congr {b b' : BufferCells} {n : Nat} (hn : n ≤ 144)
    (h : ∀ (j : Nat) (hj : j < n), (b[j]'(by omega)) = (b'[j]'(by omega))) : readBytes b n = readBytes b' n := by
  apply List.ext_getElem?
  intro j
  by_cases hj : j < n
  · rw [getElem?_readBytes hj hn, getElem?_readBytes hj hn, h j hj]
  · rw [List.getElem?_eq_none (by rw [length_readBytes hn]; omega),
      List.getElem?_eq_none (by rw [length_readBytes hn]; omega)]

/-- A write at `start` leaves what stands below it. -/
theorem readBytes_writeBytes_below {buf : BufferCells} {start n : Nat} {bs : List Byte} (h : n ≤ start)
    (hn : n ≤ 144) : readBytes (writeBytes buf start bs) n = readBytes buf n := by
  refine readBytes_congr hn fun j hj => ?_
  rw [getElem_writeBytes, if_neg (by omega)]

/-- Reading up to the end of a write gives what stood before it and then the bytes written. -/
theorem readBytes_writeBytes {buf : BufferCells} {start : Nat} {bs : List Byte} (h : start + bs.length ≤ 144) :
    readBytes (writeBytes buf start bs) (start + bs.length) = readBytes buf start ++ bs := by
  apply List.ext_getElem?
  intro j
  by_cases hj : j < start + bs.length
  · rw [getElem?_readBytes hj h, getElem_writeBytes]
    by_cases hs : start ≤ j
    · rw [if_pos ⟨hs, hj⟩, List.getElem?_append_right (by rw [length_readBytes (by omega)]; omega),
        length_readBytes (by omega)]
      have : j - start < bs.length := by omega
      simp [List.getD_eq_getElem?_getD, this]
    · rw [if_neg (by omega), List.getElem?_append_left (by rw [length_readBytes (by omega)]; omega),
        getElem?_readBytes (by omega) (by omega)]
  · rw [List.getElem?_eq_none (by rw [length_readBytes h]; omega),
      List.getElem?_eq_none (by rw [List.length_append, length_readBytes (by omega)]; omega)]

end Sys2Proof.Machine
end

