-- ==== Sys2Proof/Laws/Bytes.lean ====
section
/-!
SUPPORT. Byte order: the words and lanes packed from bytes give the bytes back, and the byte sequences have the
lengths the spec gives them.
-/

namespace Sys2Proof.Machine

/-- Byte `k` of a port word is byte `k` of what it was packed from (30_encoding.md R70). -/
theorem wordBytes_word32 (b0 b1 b2 b3 : Byte) : wordBytes (word32 b0 b1 b2 b3) = [b0, b1, b2, b3] := by
  have h : ∀ (k : Nat) (b : Byte), k < 4 →
      (∀ i < 8, (word32 b0 b1 b2 b3).getLsbD (8 * k + i) = b.getLsbD i) → wordByte (word32 b0 b1 b2 b3) k = b := by
    intro k b _ hb
    refine BitVec.eq_of_getLsbD_eq fun i hi => ?_
    simp [wordByte, hi, hb i hi]
  simp only [wordBytes]
  rw [h 0 b0 (by omega) ?_, h 1 b1 (by omega) ?_, h 2 b2 (by omega) ?_, h 3 b3 (by omega) ?_]
  all_goals
    intro i hi
    simp only [word32, BitVec.getLsbD_append]
    repeat' split
    all_goals first | omega | (congr 1; omega)

@[simp] theorem length_wordBytes (w : Word) : (wordBytes w).length = 4 := rfl

@[simp] theorem length_bytesLE (v : Lane) : (bytesLE v).length = 8 := rfl

/-- A port word is packed from its own bytes. -/
theorem word32_wordBytes (w : Word) : word32 (wordByte w 0) (wordByte w 1) (wordByte w 2) (wordByte w 3) = w := by
  refine BitVec.eq_of_getLsbD_eq fun i hi => ?_
  simp only [word32, wordByte, BitVec.getLsbD_append, BitVec.getLsbD_extractLsb']
  have : i / 8 = 0 ∨ i / 8 = 1 ∨ i / 8 = 2 ∨ i / 8 = 3 := by omega
  rcases this with h | h | h | h
  · simp [show i < 8 by omega]
  · simp [show ¬ i < 8 by omega, show i - 8 < 8 by omega, show 8 + (i - 8) = i by omega]
  · simp [show ¬ i < 8 by omega, show ¬ i - 8 < 8 by omega, show i - 8 - 8 < 8 by omega,
      show 16 + (i - 8 - 8) = i by omega]
  · simp [show ¬ i < 8 by omega, show ¬ i - 8 < 8 by omega, show ¬ i - 8 - 8 < 8 by omega,
      show i - 8 - 8 - 8 < 8 by omega, show 24 + (i - 8 - 8 - 8) = i by omega]

/-- A packed byte sequence has `ceil(n/4)` words (30_encoding.md R74). -/
theorem length_packWords (bs : List Byte) : (packWords bs).length = (bs.length + 3) / 4 := by
  fun_induction packWords bs with
  | case1 => rfl
  | case2 => simp
  | case3 => simp
  | case4 => simp
  | case5 b0 b1 b2 b3 rest ih => simp only [List.length_cons, ih]; omega

/-- The window delivered in a payload is the window that was packed (30_encoding.md R75). -/
theorem take_unpackWords_packWords (bs : List Byte) : (unpackWords (packWords bs)).take bs.length = bs := by
  fun_induction packWords bs with
  | case1 => rfl
  | case2 => simp [unpackWords, wordBytes_word32]
  | case3 => simp [unpackWords, wordBytes_word32]
  | case4 => simp [unpackWords, wordBytes_word32]
  | case5 b0 b1 b2 b3 rest ih =>
    simp only [unpackWords, List.flatMap_cons, wordBytes_word32] at ih ⊢
    simp [ih]

theorem length_unpackWords (ws : List Word) : (unpackWords ws).length = 4 * ws.length := by
  induction ws with
  | nil => rfl
  | cons w ws ih =>
    have : (unpackWords (w :: ws)).length = 4 + (unpackWords ws).length := by
      simp [unpackWords]
    rw [this, ih, List.length_cons]
    omega

/-- Byte `j` of a payload is byte `j mod 4` of word `j div 4` (30_encoding.md R75). -/
theorem getElem?_unpackWords (ws : List Word) (j : Nat) :
    (unpackWords ws)[j]? = (ws[j / 4]?).map fun w => wordByte w (j % 4) := by
  induction ws generalizing j with
  | nil => simp [unpackWords]
  | cons w ws ih =>
    have hcons : unpackWords (w :: ws) = wordBytes w ++ unpackWords ws := by simp [unpackWords]
    rw [hcons]
    by_cases hj : j < 4
    · have hd : j / 4 = 0 := by omega
      have hm : j % 4 = j := by omega
      rw [List.getElem?_append_left (by simpa using hj), hd, hm]
      have : j = 0 ∨ j = 1 ∨ j = 2 ∨ j = 3 := by omega
      rcases this with rfl | rfl | rfl | rfl <;> rfl
    · have hd : j / 4 = (j - 4) / 4 + 1 := by omega
      have hm : j % 4 = (j - 4) % 4 := by omega
      rw [List.getElem?_append_right (by simpa using hj), length_wordBytes, ih, hd, hm]
      simp

/-- Byte `k` of a lane is byte `k` of what it was assembled from (00_scope.md R11). -/
theorem bytesLE_le64 (b0 b1 b2 b3 b4 b5 b6 b7 : Byte) :
    bytesLE (le64 b0 b1 b2 b3 b4 b5 b6 b7) = [b0, b1, b2, b3, b4, b5, b6, b7] := by
  have h : ∀ (k : Nat) (b : Byte),
      (∀ i < 8, (le64 b0 b1 b2 b3 b4 b5 b6 b7).getLsbD (8 * k + i) = b.getLsbD i) →
      laneByte (le64 b0 b1 b2 b3 b4 b5 b6 b7) k = b := by
    intro k b hb
    refine BitVec.eq_of_getLsbD_eq fun i hi => ?_
    simp [laneByte, hi, hb i hi]
  simp only [bytesLE]
  rw [h 0 b0 ?_, h 1 b1 ?_, h 2 b2 ?_, h 3 b3 ?_, h 4 b4 ?_, h 5 b5 ?_, h 6 b6 ?_, h 7 b7 ?_]
  all_goals
    intro i hi
    simp only [le64, BitVec.getLsbD_append]
    repeat' split
    all_goals first | omega | (congr 1; omega)

theorem laneByte_xor (v w : Lane) (k : Nat) : laneByte (v ^^^ w) k = laneByte v k ^^^ laneByte w k := by
  refine BitVec.eq_of_getLsbD_eq fun i hi => ?_
  simp [laneByte, hi]

/-- Lane byte `j` of the state sequence is byte `j mod 8` of lane `j div 8` (20_memory.md R54). -/
theorem getElem?_flatMap_bytesLE (ls : List Lane) (j : Nat) :
    (ls.flatMap bytesLE)[j]? = (ls[j / 8]?).map fun v => laneByte v (j % 8) := by
  induction ls generalizing j with
  | nil => simp
  | cons v ls ih =>
    rw [List.flatMap_cons]
    by_cases hj : j < 8
    · have hd : j / 8 = 0 := by omega
      have hm : j % 8 = j := by omega
      rw [List.getElem?_append_left (by simpa using hj), hd, hm]
      have : j = 0 ∨ j = 1 ∨ j = 2 ∨ j = 3 ∨ j = 4 ∨ j = 5 ∨ j = 6 ∨ j = 7 := by omega
      rcases this with rfl | rfl | rfl | rfl | rfl | rfl | rfl | rfl <;> rfl
    · have hd : j / 8 = (j - 8) / 8 + 1 := by omega
      have hm : j % 8 = (j - 8) % 8 := by omega
      rw [List.getElem?_append_right (by simpa using hj), length_bytesLE, ih, hd, hm]
      simp

/-- The lane state is 200 bytes (00_scope.md R6). -/
theorem length_stateBytes (A : Lanes) : (stateBytes A).length = 200 := by
  have h : ∀ ls : List Lane, (ls.flatMap bytesLE).length = 8 * ls.length := by
    intro ls
    induction ls with
    | nil => rfl
    | cons v ls ih => rw [List.flatMap_cons, List.length_append, ih, length_bytesLE, List.length_cons]; omega
  simp [stateBytes, h]

end Sys2Proof.Machine
end

