-- ==== Sys2Proof/Laws/Sponge.lean ====
section
/-!
SUPPORT. What ABSORB's and FINALIZE's shared operations do, said once in terms of the message's blocks
(41_sponge_commands.md R144, R145, R148).
-/

namespace Sys2Proof.Machine

theorem fullBlocks_of_lt {rate : Nat} {M : List Byte} (h : M.length < rate) : fullBlocks rate M = [] := by
  simp [fullBlocks, Nat.div_eq_of_lt h]

/-- A message that begins with a whole block has that block first. -/
theorem fullBlocks_cons {rate : Nat} {M : List Byte} (hr : 0 < rate) (h : rate ≤ M.length) :
    fullBlocks rate M = M.take rate :: fullBlocks rate (M.drop rate) := by
  have hdiv : M.length / rate = (M.length - rate) / rate + 1 := by
    rw [Nat.div_eq_sub_div hr h]
  simp only [fullBlocks, hdiv, List.length_drop, List.range_succ_eq_map, List.map_cons, List.map_map]
  congr 1
  · simp
  · apply List.map_congr_left
    intro k _
    simp [Function.comp, List.drop_drop, Nat.succ_mul, Nat.add_comm]

theorem absorbAll_append (d : DigestLength) (A : Lanes) (xs ys : List (List Byte)) :
    absorbAll d A (xs ++ ys) = absorbAll d (absorbAll d A xs) ys := by
  simp [absorbAll, List.foldl_append]

theorem absorbAll_cons (d : DigestLength) (A : Lanes) (x : List Byte) (ys : List (List Byte)) :
    absorbAll d A (x :: ys) = absorbAll d (absorbBlock A x d.laneCount) ys := rfl

theorem absorbAll_nil (d : DigestLength) (A : Lanes) : absorbAll d A [] = A := rfl

/-- Whole blocks in front are blocks of their own. -/
theorem fullBlocks_append {rate : Nat} (hr : 0 < rate) (M N : List Byte) (h : M.length % rate = 0) :
    fullBlocks rate (M ++ N) = fullBlocks rate M ++ fullBlocks rate N := by
  generalize hn : M.length / rate = n
  induction n generalizing M with
  | zero =>
    have : M.length = 0 := by
      have := Nat.div_add_mod M.length rate
      rw [hn, h] at this
      omega
    rw [List.length_eq_zero_iff.mp this]
    simp [fullBlocks]
  | succ n ih =>
    have hle : rate ≤ M.length := by
      by_contra hlt
      rw [Nat.div_eq_of_lt (by omega)] at hn
      omega
    rw [fullBlocks_cons hr (by rw [List.length_append]; omega), fullBlocks_cons hr hle,
      List.take_append_of_le_length hle, List.drop_append_of_le_length hle, List.cons_append]
    congr 1
    refine ih _ ?_ ?_
    · rw [List.length_drop, ← Nat.mod_eq_sub_mod hle, h]
    · rw [List.length_drop]
      have := Nat.div_eq_sub_div hr hle
      omega

/-- The full blocks of a longer message: those of the message, and then those of what was left of it and what comes
after (41_sponge_commands.md R148). -/
theorem fullBlocks_append_rest {rate : Nat} (hr : 0 < rate) (M N : List Byte) :
    fullBlocks rate (M ++ N) =
      fullBlocks rate M ++ fullBlocks rate (M.drop (M.length - M.length % rate) ++ N) := by
  have hle := Nat.mod_le M.length rate
  have hlt := Nat.mod_lt M.length hr
  have hsplit := List.take_append_drop (M.length - M.length % rate) M
  have hwhole : (M.take (M.length - M.length % rate)).length % rate = 0 := by
    rw [List.length_take, Nat.min_eq_left (by omega)]
    exact Nat.sub_mod_eq_zero_of_mod_eq (by simp)
  have hlong := fullBlocks_append hr _ (M.drop (M.length - M.length % rate) ++ N) hwhole
  have hshort := fullBlocks_append hr _ (M.drop (M.length - M.length % rate)) hwhole
  rw [← List.append_assoc, hsplit] at hlong
  rw [hsplit, fullBlocks_of_lt (M := M.drop _) (by rw [List.length_drop]; omega), List.append_nil] at hshort
  rw [hlong, hshort]

/-- Every full block has `rate` bytes. -/
theorem length_of_mem_fullBlocks {rate : Nat} {M B : List Byte} (h : B ∈ fullBlocks rate M) : B.length = rate := by
  simp only [fullBlocks, List.mem_map, List.mem_range] at h
  obtain ⟨k, hk, rfl⟩ := h
  have : (k + 1) * rate ≤ M.length := (Nat.le_div_iff_mul_le (by
    rcases Nat.eq_zero_or_pos rate with h0 | h0
    · simp [h0] at hk
    · exact h0)).mp hk
  rw [Nat.succ_mul] at this
  simp
  omega

theorem length_fullBlocks (rate : Nat) (M : List Byte) : (fullBlocks rate M).length = M.length / rate := by
  simp [fullBlocks]

/-- Step (c) of ABSORB (R144): it absorbs exactly the full blocks of its input and leaves the rest. -/
theorem absorbFullBlocks_eq (d : DigestLength) (fuel : Nat) (A : Lanes) (input : List Byte)
    (hf : input.length ≤ fuel) :
    absorbFullBlocks d fuel A input =
      (absorbAll d A (fullBlocks d.rate input), input.drop (input.length - input.length % d.rate)) := by
  have hr := d.rate_pos
  induction fuel generalizing A input with
  | zero =>
    have : input = [] := List.length_eq_zero_iff.mp (by omega)
    subst this
    simp [absorbFullBlocks, fullBlocks, absorbAll]
  | succ fuel ih =>
    rw [absorbFullBlocks]
    split
    · rename_i hle
      rw [ih _ _ (by rw [List.length_drop]; omega), fullBlocks_cons hr hle, absorbAll_cons, List.drop_drop,
        List.length_drop, ← Nat.mod_eq_sub_mod hle]
      have hm : input.length % d.rate ≤ input.length - d.rate := by
        rw [Nat.mod_eq_sub_mod hle]
        exact Nat.mod_le _ _
      congr 2
      omega
    · rename_i hlt
      rw [fullBlocks_of_lt (by omega), Nat.mod_eq_of_lt (by omega)]
      simp [absorbAll_nil]

/-- The bytes an ABSORB has before it: those staged and those that come. -/
theorem length_staged_append {s : State} {n : Nat} (hf : s.fill < n) (hn : n ≤ 144) (input : List Byte) :
    (readBytes s.buf s.fill ++ input).length = s.fill + input.length := by
  rw [List.length_append, length_readBytes (by omega)]

/-- What ABSORB's steps (a) to (d) do where the input does not fill the staging buffer (R144). -/
theorem absorbBytes_short {d : DigestLength} {input : List Byte} {s : State} (hf : s.fill < d.rate)
    (h : s.fill + input.length < d.rate) :
    absorbBytes d input s =
      { s with fsm := .absorbing, buf := writeBytes s.buf s.fill input, fill := s.fill + input.length } := by
  have hk : min (d.rate - s.fill) input.length = input.length := by omega
  unfold absorbBytes
  dsimp only
  rw [hk, if_neg (by omega), List.take_length]

/-- What they do where it does: the staged bytes and the input are absorbed block by block, and the bytes after the
last whole block are staged from cell 0 on (R144). -/
theorem absorbBytes_long {d : DigestLength} {input : List Byte} {s : State} (hf : s.fill < d.rate)
    (h : d.rate ≤ s.fill + input.length) :
    absorbBytes d input s =
      { s with
        fsm := .absorbing
        A := absorbAll d s.A (fullBlocks d.rate (readBytes s.buf s.fill ++ input))
        buf := writeBytes (writeBytes s.buf s.fill (input.take (d.rate - s.fill))) 0
          ((readBytes s.buf s.fill ++ input).drop
            (s.fill + input.length - (s.fill + input.length) % d.rate))
        fill := (s.fill + input.length) % d.rate } := by
  have hr := d.rate_le
  have hk : min (d.rate - s.fill) input.length = d.rate - s.fill := by omega
  have hlen : (readBytes s.buf s.fill).length = s.fill := length_readBytes (by omega)
  have htop : readBytes (writeBytes s.buf s.fill (input.take (d.rate - s.fill))) d.rate =
      (readBytes s.buf s.fill ++ input).take d.rate := by
    have e : s.fill + (input.take (d.rate - s.fill)).length = d.rate := by
      rw [List.length_take]; omega
    have := readBytes_writeBytes (buf := s.buf) (start := s.fill) (bs := input.take (d.rate - s.fill)) (by omega)
    rw [e] at this
    rw [this, List.take_append, hlen, List.take_of_length_le (show (readBytes s.buf s.fill).length ≤ d.rate by omega)]
  have hdrop : input.drop (d.rate - s.fill) = (readBytes s.buf s.fill ++ input).drop d.rate := by
    rw [List.drop_append, hlen, List.drop_of_length_le (show (readBytes s.buf s.fill).length ≤ d.rate by omega),
      List.nil_append]
  have hmod : (s.fill + input.length - d.rate) % d.rate = (s.fill + input.length) % d.rate :=
    (Nat.mod_eq_sub_mod h).symm
  have hml : (s.fill + input.length) % d.rate ≤ s.fill + input.length - d.rate := by
    rw [Nat.mod_eq_sub_mod h]
    exact Nat.mod_le _ _
  have hlt := Nat.mod_lt (s.fill + input.length) d.rate_pos
  unfold absorbBytes
  dsimp only
  rw [hk, if_pos (by omega), htop, hdrop,
    absorbFullBlocks_eq _ _ _ _ (by rw [List.length_drop, List.length_append, hlen]; omega)]
  dsimp only
  have hcons := fullBlocks_cons (M := readBytes s.buf s.fill ++ input) d.rate_pos
    (by rw [List.length_append, hlen]; exact h)
  rw [hcons, absorbAll_cons]
  simp only [List.length_drop, List.drop_drop, List.length_append, hlen, hmod]
  have e1 : d.rate + (s.fill + input.length - d.rate - (s.fill + input.length) % d.rate) =
      s.fill + input.length - (s.fill + input.length) % d.rate := by omega
  have e2 : s.fill + input.length - (s.fill + input.length - (s.fill + input.length) % d.rate) =
      (s.fill + input.length) % d.rate := by omega
  rw [e1, e2]

/-- Everything ABSORB's steps say of the lanes, the fill and the staged bytes, in both cases (R144). -/
theorem absorbBytes_spec {d : DigestLength} {input : List Byte} {s : State} (hf : s.fill < d.rate) :
    (absorbBytes d input s).A = absorbAll d s.A (fullBlocks d.rate (readBytes s.buf s.fill ++ input)) ∧
    (absorbBytes d input s).fill = (s.fill + input.length) % d.rate ∧
    readBytes (absorbBytes d input s).buf ((s.fill + input.length) % d.rate) =
      (readBytes s.buf s.fill ++ input).drop (s.fill + input.length - (s.fill + input.length) % d.rate) := by
  have hr := d.rate_le
  have hlen : (readBytes s.buf s.fill).length = s.fill := length_readBytes (by omega)
  rcases Nat.lt_or_ge (s.fill + input.length) d.rate with h | h
  · rw [absorbBytes_short hf h, Nat.mod_eq_of_lt h]
    refine ⟨?_, rfl, ?_⟩
    · rw [fullBlocks_of_lt (by rw [List.length_append, hlen]; exact h), absorbAll_nil]
    · rw [Nat.sub_self, List.drop_zero]
      exact readBytes_writeBytes (by omega)
  · rw [absorbBytes_long hf h]
    refine ⟨rfl, rfl, ?_⟩
    have hlt := Nat.mod_lt (s.fill + input.length) d.rate_pos
    have hl : ((readBytes s.buf s.fill ++ input).drop
        (s.fill + input.length - (s.fill + input.length) % d.rate)).length = (s.fill + input.length) % d.rate := by
      rw [List.length_drop, List.length_append, hlen]
      have := Nat.mod_le (s.fill + input.length) d.rate
      omega
    have := readBytes_writeBytes (buf := writeBytes s.buf s.fill (input.take (d.rate - s.fill))) (start := 0)
      (bs := (readBytes s.buf s.fill ++ input).drop
        (s.fill + input.length - (s.fill + input.length) % d.rate)) (by omega)
    rw [hl, Nat.zero_add] at this
    rw [this]
    rfl

/-- ABSORB's steps write no cell at or past `rate` (10_state.md R25). -/
theorem absorbBytes_buf_high {d : DigestLength} {input : List Byte} {s : State} (hf : s.fill < d.rate)
    (j : Nat) (hj : j < 144) (h : d.rate ≤ j) : (absorbBytes d input s).buf[j] = s.buf[j] := by
  rcases Nat.lt_or_ge (s.fill + input.length) d.rate with hs | hs
  · rw [absorbBytes_short hf hs]
    rw [getElem_writeBytes, if_neg (by omega)]
  · rw [absorbBytes_long hf hs]
    have hlt := Nat.mod_lt (s.fill + input.length) d.rate_pos
    have hlen : (readBytes s.buf s.fill).length = s.fill := length_readBytes (by have := d.rate_le; omega)
    rw [getElem_writeBytes, if_neg, getElem_writeBytes, if_neg]
    · rw [List.length_take]
      omega
    · rw [List.length_drop, List.length_append, hlen]
      omega

theorem length_messagePad {rate f : Nat} (K : Bool) (h : f < rate) : (messagePad rate K f).length = rate - f := by
  unfold messagePad
  split
  · simp
    omega
  · simp
    omega

/-- FINALIZE's padding, cell by cell (R145). -/
theorem getElem_padBuffer {d : DigestLength} {K : Bool} {fill : Nat} {buf : BufferCells} (hf : fill < d.rate)
    (j : Nat) (hj : j < 144) :
    (padBuffer d K fill buf)[j] =
      if j < fill ∨ d.rate ≤ j then buf[j] else (messagePad d.rate K fill).getD (j - fill) 0 := by
  have hr := d.rate_le
  have hz : ∀ (i : Nat) (hi : i < 144), (writeBytes (writeBytes buf fill (List.replicate (d.rate - fill) 0)) fill
      [delimiter K])[i] = if i = fill then delimiter K else if fill ≤ i ∧ i < d.rate then 0 else buf[i] := by
    intro i hi
    rw [getElem_writeBytes, getElem_writeBytes]
    by_cases h1 : i = fill
    · subst h1
      simp
    · rw [if_neg (by simp; omega), if_neg h1]
      by_cases h2 : fill ≤ i ∧ i < d.rate
      · rw [if_pos (by simp; omega), if_pos h2]
        have : i - fill < d.rate - fill := by omega
        simp [List.getD_eq_getElem?_getD, this]
      · rw [if_neg (by simp; omega), if_neg h2]
  have hlast : (writeBytes (writeBytes buf fill (List.replicate (d.rate - fill) 0)) fill [delimiter K]).toList.getD
      (d.rate - 1) 0 = if d.rate - 1 = fill then delimiter K else 0 := by
    have h144 : d.rate - 1 < 144 := by omega
    have := hz (d.rate - 1) h144
    rw [if_pos (show fill ≤ d.rate - 1 ∧ d.rate - 1 < d.rate by omega)] at this
    rw [← this]
    simp [List.getD_eq_getElem?_getD, h144]
  unfold padBuffer
  dsimp only
  rw [getElem_writeBytes, hz j hj, hlast]
  simp only [List.length_singleton]
  unfold messagePad
  by_cases hlo : j < fill ∨ d.rate ≤ j
  · rw [if_pos hlo, if_neg (by omega), if_neg (by omega), if_neg (by omega)]
  · rw [if_neg hlo]
    by_cases hj1 : j = d.rate - 1
    · rw [if_pos (by omega)]
      subst hj1
      by_cases hfl : d.rate - 1 = fill
      · rw [if_pos hfl, if_neg (by omega), hfl, Nat.sub_self]
      · rw [if_neg hfl, if_pos (by omega)]
        have e : d.rate - 1 - fill = (d.rate - fill - 2) + 1 := by omega
        rw [e]
        simp [List.getD_eq_getElem?_getD]
    · rw [if_neg (by omega), if_pos (show fill + 2 ≤ d.rate by omega)]
      by_cases hje : j = fill
      · subst hje
        simp
      · rw [if_neg hje, if_pos (by omega)]
        have e : j - fill = (j - fill - 1) + 1 := by omega
        rw [e]
        have : j - fill - 1 < d.rate - fill - 2 := by omega
        simp [List.getD_eq_getElem?_getD, List.getElem?_append_left, this]

/-- The padded block: the staged bytes and then the padding (R145, R149). -/
theorem readBytes_padBuffer {d : DigestLength} {K : Bool} {fill : Nat} {buf : BufferCells} (hf : fill < d.rate) :
    readBytes (padBuffer d K fill buf) d.rate = readBytes buf fill ++ messagePad d.rate K fill := by
  have hr := d.rate_le
  have hlen : (readBytes buf fill).length = fill := length_readBytes (by omega)
  apply List.ext_getElem?
  intro j
  by_cases hj : j < d.rate
  · rw [getElem?_readBytes hj hr, getElem_padBuffer hf]
    by_cases hlo : j < fill
    · rw [if_pos (Or.inl hlo), List.getElem?_append_left (by omega), getElem?_readBytes hlo (by omega)]
    · rw [if_neg (by omega), List.getElem?_append_right (by omega), hlen]
      have : j - fill < (messagePad d.rate K fill).length := by rw [length_messagePad K hf]; omega
      simp [List.getD_eq_getElem?_getD, this]
  · rw [List.getElem?_eq_none (by rw [length_readBytes hr]; omega),
      List.getElem?_eq_none (by rw [List.length_append, hlen, length_messagePad K hf]; omega)]

end Sys2Proof.Machine
end

