-- ==== Sys2Proof/Laws/State.lean ====
section
/-!
SUPPORT. One lemma per field for every update of the state that Machine/Ops.lean and Machine/Step.lean define, so
that no proof unfolds a record update.
-/

namespace Sys2Proof.Machine

/-! Taking a fault writes `lastFault` and the response, nothing else (60_exceptions.md R200). -/

@[simp] theorem takeFault_A (op : Byte) (code : FaultCode) (s : State) :
    (takeFault op code s).A = s.A := rfl
@[simp] theorem takeFault_cfg (op : Byte) (code : FaultCode) (s : State) :
    (takeFault op code s).cfg = s.cfg := rfl
@[simp] theorem takeFault_buf (op : Byte) (code : FaultCode) (s : State) :
    (takeFault op code s).buf = s.buf := rfl
@[simp] theorem takeFault_fill (op : Byte) (code : FaultCode) (s : State) :
    (takeFault op code s).fill = s.fill := rfl
@[simp] theorem takeFault_K (op : Byte) (code : FaultCode) (s : State) :
    (takeFault op code s).K = s.K := rfl
@[simp] theorem takeFault_fsm (op : Byte) (code : FaultCode) (s : State) :
    (takeFault op code s).fsm = s.fsm := rfl
@[simp] theorem takeFault_lastFault (op : Byte) (code : FaultCode) (s : State) :
    (takeFault op code s).lastFault = code := rfl
@[simp] theorem takeFault_portIn (op : Byte) (code : FaultCode) (s : State) :
    (takeFault op code s).portIn = s.portIn := rfl
@[simp] theorem takeFault_portOut (op : Byte) (code : FaultCode) (s : State) :
    (takeFault op code s).portOut = s.portOut ++ [faultWord op code] := rfl

/-! Answering OK writes the response, nothing else (30_encoding.md R82). -/

@[simp] theorem respondOk_A (op : Byte) (data : List Word) (s : State) :
    (respondOk op data s).A = s.A := rfl
@[simp] theorem respondOk_cfg (op : Byte) (data : List Word) (s : State) :
    (respondOk op data s).cfg = s.cfg := rfl
@[simp] theorem respondOk_buf (op : Byte) (data : List Word) (s : State) :
    (respondOk op data s).buf = s.buf := rfl
@[simp] theorem respondOk_fill (op : Byte) (data : List Word) (s : State) :
    (respondOk op data s).fill = s.fill := rfl
@[simp] theorem respondOk_K (op : Byte) (data : List Word) (s : State) :
    (respondOk op data s).K = s.K := rfl
@[simp] theorem respondOk_fsm (op : Byte) (data : List Word) (s : State) :
    (respondOk op data s).fsm = s.fsm := rfl
@[simp] theorem respondOk_lastFault (op : Byte) (data : List Word) (s : State) :
    (respondOk op data s).lastFault = s.lastFault := rfl
@[simp] theorem respondOk_portIn (op : Byte) (data : List Word) (s : State) :
    (respondOk op data s).portIn = s.portIn := rfl
@[simp] theorem respondOk_portOut (op : Byte) (data : List Word) (s : State) :
    (respondOk op data s).portOut = s.portOut ++ okWord op :: data := rfl

/-! Clearing a session (41_sponge_commands.md R141, R143). -/

@[simp] theorem clearSession_A (s : State) :
    (clearSession s).A = zeroLanes := rfl
@[simp] theorem clearSession_cfg (s : State) :
    (clearSession s).cfg = s.cfg := rfl
@[simp] theorem clearSession_buf (s : State) :
    (clearSession s).buf = zeroBuf := rfl
@[simp] theorem clearSession_fill (s : State) :
    (clearSession s).fill = 0 := rfl
@[simp] theorem clearSession_K (s : State) :
    (clearSession s).K = s.K := rfl
@[simp] theorem clearSession_fsm (s : State) :
    (clearSession s).fsm = .ready := rfl
@[simp] theorem clearSession_lastFault (s : State) :
    (clearSession s).lastFault = s.lastFault := rfl
@[simp] theorem clearSession_portIn (s : State) :
    (clearSession s).portIn = s.portIn := rfl
@[simp] theorem clearSession_portOut (s : State) :
    (clearSession s).portOut = s.portOut := rfl

/-! Words handed to the port. -/

@[simp] theorem deliver_A (ws : List Word) (s : State) :
    (State.deliver ws s).A = s.A := rfl
@[simp] theorem deliver_cfg (ws : List Word) (s : State) :
    (State.deliver ws s).cfg = s.cfg := rfl
@[simp] theorem deliver_buf (ws : List Word) (s : State) :
    (State.deliver ws s).buf = s.buf := rfl
@[simp] theorem deliver_fill (ws : List Word) (s : State) :
    (State.deliver ws s).fill = s.fill := rfl
@[simp] theorem deliver_K (ws : List Word) (s : State) :
    (State.deliver ws s).K = s.K := rfl
@[simp] theorem deliver_fsm (ws : List Word) (s : State) :
    (State.deliver ws s).fsm = s.fsm := rfl
@[simp] theorem deliver_lastFault (ws : List Word) (s : State) :
    (State.deliver ws s).lastFault = s.lastFault := rfl
@[simp] theorem deliver_portIn (ws : List Word) (s : State) :
    (State.deliver ws s).portIn = s.portIn ++ ws := rfl
@[simp] theorem deliver_portOut (ws : List Word) (s : State) :
    (State.deliver ws s).portOut = s.portOut := rfl

/-! FINALIZE's writes (41_sponge_commands.md R145). -/

@[simp] theorem finalizeSponge_A (d : DigestLength) (s : State) :
    (finalizeSponge d s).A = absorbBlock s.A (readBytes (padBuffer d s.K s.fill s.buf) d.rate) d.laneCount := rfl
@[simp] theorem finalizeSponge_cfg (d : DigestLength) (s : State) :
    (finalizeSponge d s).cfg = s.cfg := rfl
@[simp] theorem finalizeSponge_buf (d : DigestLength) (s : State) :
    (finalizeSponge d s).buf = padBuffer d s.K s.fill s.buf := rfl
@[simp] theorem finalizeSponge_fill (d : DigestLength) (s : State) :
    (finalizeSponge d s).fill = s.fill + 1 := rfl
@[simp] theorem finalizeSponge_K (d : DigestLength) (s : State) :
    (finalizeSponge d s).K = s.K := rfl
@[simp] theorem finalizeSponge_fsm (d : DigestLength) (s : State) :
    (finalizeSponge d s).fsm = .finalized := rfl
@[simp] theorem finalizeSponge_lastFault (d : DigestLength) (s : State) :
    (finalizeSponge d s).lastFault = s.lastFault := rfl
@[simp] theorem finalizeSponge_portIn (d : DigestLength) (s : State) :
    (finalizeSponge d s).portIn = s.portIn := rfl
@[simp] theorem finalizeSponge_portOut (d : DigestLength) (s : State) :
    (finalizeSponge d s).portOut = s.portOut := rfl

/-! What ABSORB's steps (a) to (d) leave alone, and `fsm` (41_sponge_commands.md R144). -/

@[simp] theorem absorbBytes_cfg (d : DigestLength) (input : List Byte) (s : State) :
    (absorbBytes d input s).cfg = s.cfg := by
  unfold absorbBytes
  dsimp only
  split <;> rfl
@[simp] theorem absorbBytes_K (d : DigestLength) (input : List Byte) (s : State) :
    (absorbBytes d input s).K = s.K := by
  unfold absorbBytes
  dsimp only
  split <;> rfl
@[simp] theorem absorbBytes_lastFault (d : DigestLength) (input : List Byte) (s : State) :
    (absorbBytes d input s).lastFault = s.lastFault := by
  unfold absorbBytes
  dsimp only
  split <;> rfl
@[simp] theorem absorbBytes_portIn (d : DigestLength) (input : List Byte) (s : State) :
    (absorbBytes d input s).portIn = s.portIn := by
  unfold absorbBytes
  dsimp only
  split <;> rfl
@[simp] theorem absorbBytes_portOut (d : DigestLength) (input : List Byte) (s : State) :
    (absorbBytes d input s).portOut = s.portOut := by
  unfold absorbBytes
  dsimp only
  split <;> rfl
@[simp] theorem absorbBytes_fsm (d : DigestLength) (input : List Byte) (s : State) :
    (absorbBytes d input s).fsm = .absorbing := by
  unfold absorbBytes
  dsimp only
  split <;> rfl

/-! Hardware reset, field by field (10_state.md R35). -/

@[simp] theorem resetWith_A (k : Bool) : (State.resetWith k).A = zeroLanes := rfl
@[simp] theorem resetWith_cfg (k : Bool) : (State.resetWith k).cfg = none := rfl
@[simp] theorem resetWith_buf (k : Bool) : (State.resetWith k).buf = zeroBuf := rfl
@[simp] theorem resetWith_fill (k : Bool) : (State.resetWith k).fill = 0 := rfl
@[simp] theorem resetWith_K (k : Bool) : (State.resetWith k).K = k := rfl
@[simp] theorem resetWith_fsm (k : Bool) : (State.resetWith k).fsm = .unconfigured := rfl
@[simp] theorem resetWith_lastFault (k : Bool) : (State.resetWith k).lastFault = .noFault := rfl
@[simp] theorem resetWith_portIn (k : Bool) : (State.resetWith k).portIn = [] := rfl
@[simp] theorem resetWith_portOut (k : Bool) : (State.resetWith k).portOut = [] := rfl

end Sys2Proof.Machine
end

