-- ==== Sys2Proof/Laws/Exec.lean ====
section
/-!
SUPPORT. Everything a command and a step can do, said once: the one inversion lemma of each meaning, of `exec` and of
`step`, which later proofs cite instead of unfolding.
-/

namespace Sys2Proof.Machine

/-- What CONFIG can do (41_sponge_commands.md R141). -/
theorem execConfig_cases (b : BitVec 16) (s : State) :
    (s.fsm ≠ .unconfigured ∧ execConfig b s = .next (takeFault opConfig .sequence s)) ∨
    (s.fsm = .unconfigured ∧ digestLengthOf b = none ∧ execConfig b s = .next (takeFault opConfig .badDigestLength s)) ∨
    (∃ d, s.fsm = .unconfigured ∧ digestLengthOf b = some d ∧
      execConfig b s = .next (respondOk opConfig [] { clearSession s with cfg := some d })) := by
  unfold execConfig
  by_cases hf : s.fsm = .unconfigured
  · rw [if_neg (not_not_intro hf)]
    cases hd : digestLengthOf b with
    | none => exact .inr (.inl ⟨hf, rfl, rfl⟩)
    | some d => exact .inr (.inr ⟨d, hf, rfl, rfl⟩)
  · exact .inl ⟨hf, if_pos hf⟩

/-- What SETMODE can do (R142). -/
theorem execSetmode_cases (km : Bool) (s : State) :
    (s.fsm = .unconfigured ∧ execSetmode km s = .next (takeFault opSetmode .notConfigured s)) ∨
    (s.fsm = .absorbing ∧ execSetmode km s = .next (takeFault opSetmode .sequence s)) ∨
    ((s.fsm = .ready ∨ s.fsm = .finalized) ∧ execSetmode km s = .next (respondOk opSetmode [] { s with K := km })) := by
  unfold execSetmode
  cases hf : s.fsm <;> simp

/-- What INIT can do (R143). -/
theorem execInit_cases (s : State) :
    (s.fsm = .unconfigured ∧ execInit s = .next (takeFault opInit .notConfigured s)) ∨
    (s.fsm ≠ .unconfigured ∧ execInit s = .next (respondOk opInit [] (clearSession s))) := by
  unfold execInit
  by_cases hf : s.fsm = .unconfigured <;> simp [hf]

/-- What ABSORB can do (R144): a fault before any write, the no-op, or steps (a) to (d); the model stops only where
`cfg` is NONE or `fill > rate`. -/
theorem execAbsorb_cases (offset length : BitVec 32) (window : List Byte) (s : State) :
    (s.fsm = .unconfigured ∧ execAbsorb offset length window s = .next (takeFault opAbsorb .notConfigured s)) ∨
    (s.fsm = .finalized ∧ execAbsorb offset length window s = .next (takeFault opAbsorb .sequence s)) ∨
    ((s.fsm = .ready ∨ s.fsm = .absorbing) ∧
      ((rangeOk offset length window.length = false ∧
          execAbsorb offset length window s = .next (takeFault opAbsorb .badRange s)) ∨
        (rangeOk offset length window.length = true ∧
          ((s.cfg = none ∧ execAbsorb offset length window s = .fault .noConfiguration) ∨
            (∃ d, s.cfg = some d ∧
              ((d.rate < s.fill ∧ execAbsorb offset length window s = .fault .fillPastRate) ∨
                (s.fill = d.rate ∧ execAbsorb offset length window s = .next (takeFault opAbsorb .invariant s)) ∨
                (s.fill < d.rate ∧ length = 0 ∧
                  execAbsorb offset length window s = .next (respondOk opAbsorb [] s)) ∨
                (s.fill < d.rate ∧ length ≠ 0 ∧
                  execAbsorb offset length window s =
                    .next (respondOk opAbsorb [] (absorbBytes d (absorbInput offset length window) s))))))))) := by
  have main : (s.fsm = .ready ∨ s.fsm = .absorbing) → execAbsorb offset length window s =
      if rangeOk offset length window.length = false then .next (takeFault opAbsorb .badRange s)
      else
        match s.cfg with
        | none => .fault .noConfiguration
        | some d =>
          if d.rate < s.fill then .fault .fillPastRate
          else if s.fill = d.rate then .next (takeFault opAbsorb .invariant s)
          else if length = 0 then .next (respondOk opAbsorb [] s)
          else .next (respondOk opAbsorb [] (absorbBytes d (absorbInput offset length window) s)) := by
    rintro (h | h) <;> simp only [execAbsorb, h] <;> rfl
  have rest : (s.fsm = .ready ∨ s.fsm = .absorbing) →
      ((rangeOk offset length window.length = false ∧
          execAbsorb offset length window s = .next (takeFault opAbsorb .badRange s)) ∨
        (rangeOk offset length window.length = true ∧
          ((s.cfg = none ∧ execAbsorb offset length window s = .fault .noConfiguration) ∨
            (∃ d, s.cfg = some d ∧
              ((d.rate < s.fill ∧ execAbsorb offset length window s = .fault .fillPastRate) ∨
                (s.fill = d.rate ∧ execAbsorb offset length window s = .next (takeFault opAbsorb .invariant s)) ∨
                (s.fill < d.rate ∧ length = 0 ∧
                  execAbsorb offset length window s = .next (respondOk opAbsorb [] s)) ∨
                (s.fill < d.rate ∧ length ≠ 0 ∧
                  execAbsorb offset length window s =
                    .next (respondOk opAbsorb [] (absorbBytes d (absorbInput offset length window) s)))))))) := by
    intro h
    rw [main h]
    cases rangeOk offset length window.length
    · exact .inl ⟨rfl, if_pos rfl⟩
    · refine .inr ⟨rfl, ?_⟩
      rw [if_neg (by simp)]
      cases s.cfg with
      | none => exact .inl ⟨rfl, rfl⟩
      | some d =>
        refine .inr ⟨d, rfl, ?_⟩
        dsimp only
        rcases Nat.lt_trichotomy s.fill d.rate with h | h | h
        · rw [if_neg (by omega), if_neg (by omega)]
          by_cases hl : length = 0
          · exact .inr (.inr (.inl ⟨h, hl, if_pos hl⟩))
          · exact .inr (.inr (.inr ⟨h, hl, if_neg hl⟩))
        · exact .inr (.inl ⟨h, by rw [if_neg (by omega), if_pos h]⟩)
        · exact .inl ⟨h, if_pos h⟩
  rcases hf : s.fsm with _ | _ | _ | _
  · exact .inl ⟨rfl, by simp only [execAbsorb, hf]⟩
  · exact .inr (.inr ⟨.inl rfl, rest (.inl hf)⟩)
  · exact .inr (.inr ⟨.inr rfl, rest (.inr hf)⟩)
  · exact .inr (.inl ⟨rfl, by simp only [execAbsorb, hf]⟩)

/-- What FINALIZE can do (R145). -/
theorem execFinalize_cases (s : State) :
    (s.fsm = .unconfigured ∧ execFinalize s = .next (takeFault opFinalize .notConfigured s)) ∨
    (s.fsm = .finalized ∧ execFinalize s = .next (takeFault opFinalize .sequence s)) ∨
    ((s.fsm = .ready ∨ s.fsm = .absorbing) ∧
      ((s.cfg = none ∧ execFinalize s = .fault .noConfiguration) ∨
        (∃ d, s.cfg = some d ∧
          ((d.rate < s.fill ∧ execFinalize s = .fault .fillPastRate) ∨
            (s.fill = d.rate ∧ execFinalize s = .next (takeFault opFinalize .invariant s)) ∨
            (s.fill < d.rate ∧
              execFinalize s = .next (respondOk opFinalize (packWords (digestOf d (finalizeSponge d s).A))
                (finalizeSponge d s))))))) := by
  have main : (s.fsm = .ready ∨ s.fsm = .absorbing) → execFinalize s =
      match s.cfg with
      | none => .fault .noConfiguration
      | some d =>
        if d.rate < s.fill then .fault .fillPastRate
        else if s.fill = d.rate then .next (takeFault opFinalize .invariant s)
        else .next (respondOk opFinalize (packWords (digestOf d (finalizeSponge d s).A)) (finalizeSponge d s)) := by
    rintro (h | h) <;> simp only [execFinalize, h] <;> rfl
  have rest : (s.fsm = .ready ∨ s.fsm = .absorbing) →
      ((s.cfg = none ∧ execFinalize s = .fault .noConfiguration) ∨
        (∃ d, s.cfg = some d ∧
          ((d.rate < s.fill ∧ execFinalize s = .fault .fillPastRate) ∨
            (s.fill = d.rate ∧ execFinalize s = .next (takeFault opFinalize .invariant s)) ∨
            (s.fill < d.rate ∧
              execFinalize s = .next (respondOk opFinalize (packWords (digestOf d (finalizeSponge d s).A))
                (finalizeSponge d s)))))) := by
    intro h
    rw [main h]
    cases s.cfg with
    | none => exact .inl ⟨rfl, rfl⟩
    | some d =>
      refine .inr ⟨d, rfl, ?_⟩
      dsimp only
      rcases Nat.lt_trichotomy s.fill d.rate with h | h | h
      · exact .inr (.inr ⟨h, by rw [if_neg (by omega), if_neg (by omega)]⟩)
      · exact .inr (.inl ⟨h, by rw [if_neg (by omega), if_pos h]⟩)
      · exact .inl ⟨h, if_pos h⟩
  rcases hf : s.fsm with _ | _ | _ | _
  · exact .inl ⟨rfl, by simp only [execFinalize, hf]⟩
  · exact .inr (.inr ⟨.inl rfl, rest (.inl hf)⟩)
  · exact .inr (.inr ⟨.inr rfl, rest (.inr hf)⟩)
  · exact .inr (.inl ⟨rfl, by simp only [execFinalize, hf]⟩)

/-- Everything a command can do when it answers a next state: take a fault, which writes only `lastFault`, or have
its own effect. -/
theorem exec_cases {i : Instr} {s t : State} (h : exec i s = .next t) :
    (∃ c, c ≠ .noFault ∧ t = takeFault i.opcode c s) ∨
    (∃ b d, i = .config b ∧ s.fsm = .unconfigured ∧ digestLengthOf b = some d ∧
      t = respondOk opConfig [] { clearSession s with cfg := some d }) ∨
    (∃ km, i = .setmode km ∧ (s.fsm = .ready ∨ s.fsm = .finalized) ∧ t = respondOk opSetmode [] { s with K := km }) ∨
    (i = .init ∧ s.fsm ≠ .unconfigured ∧ t = respondOk opInit [] (clearSession s)) ∨
    (∃ offset length window d, i = .absorb offset length window ∧ (s.fsm = .ready ∨ s.fsm = .absorbing) ∧
      rangeOk offset length window.length = true ∧ s.cfg = some d ∧ s.fill < d.rate ∧
      ((length = 0 ∧ t = respondOk opAbsorb [] s) ∨
        (length ≠ 0 ∧ t = respondOk opAbsorb [] (absorbBytes d (absorbInput offset length window) s)))) ∨
    (∃ d, i = .finalize ∧ (s.fsm = .ready ∨ s.fsm = .absorbing) ∧ s.cfg = some d ∧ s.fill < d.rate ∧
      t = respondOk opFinalize (packWords (digestOf d (finalizeSponge d s).A)) (finalizeSponge d s)) ∨
    (i = .status ∧ t = respondOk opStatus [statusWord s] s) := by
  cases i with
  | config b =>
    change execConfig b s = _ at h
    rcases execConfig_cases b s with ⟨_, e⟩ | ⟨_, _, e⟩ | ⟨d, hf, hd, e⟩ <;> rw [e] at h <;> cases h
    · exact .inl ⟨_, by decide, rfl⟩
    · exact .inl ⟨_, by decide, rfl⟩
    · exact .inr (.inl ⟨b, d, rfl, hf, hd, rfl⟩)
  | setmode km =>
    change execSetmode km s = _ at h
    rcases execSetmode_cases km s with ⟨_, e⟩ | ⟨_, e⟩ | ⟨hf, e⟩ <;> rw [e] at h <;> cases h
    · exact .inl ⟨_, by decide, rfl⟩
    · exact .inl ⟨_, by decide, rfl⟩
    · exact .inr (.inr (.inl ⟨km, rfl, hf, rfl⟩))
  | init =>
    change execInit s = _ at h
    rcases execInit_cases s with ⟨_, e⟩ | ⟨hf, e⟩ <;> rw [e] at h <;> cases h
    · exact .inl ⟨_, by decide, rfl⟩
    · exact .inr (.inr (.inr (.inl ⟨rfl, hf, rfl⟩)))
  | absorb offset length window =>
    change execAbsorb offset length window s = _ at h
    rcases execAbsorb_cases offset length window s with ⟨_, e⟩ | ⟨_, e⟩ | ⟨hf, ⟨_, e⟩ | ⟨hr, ⟨_, e⟩ |
      ⟨d, hc, ⟨_, e⟩ | ⟨_, e⟩ | ⟨hl, h0, e⟩ | ⟨hl, h0, e⟩⟩⟩⟩ <;> rw [e] at h <;> cases h
    · exact .inl ⟨_, by decide, rfl⟩
    · exact .inl ⟨_, by decide, rfl⟩
    · exact .inl ⟨_, by decide, rfl⟩
    · exact .inl ⟨_, by decide, rfl⟩
    · exact .inr (.inr (.inr (.inr (.inl ⟨offset, length, window, d, rfl, hf, hr, hc, hl, .inl ⟨h0, rfl⟩⟩))))
    · exact .inr (.inr (.inr (.inr (.inl ⟨offset, length, window, d, rfl, hf, hr, hc, hl, .inr ⟨h0, rfl⟩⟩))))
  | finalize =>
    change execFinalize s = _ at h
    rcases execFinalize_cases s with ⟨_, e⟩ | ⟨_, e⟩ | ⟨hf, ⟨_, e⟩ | ⟨d, hc, ⟨_, e⟩ | ⟨_, e⟩ | ⟨hl, e⟩⟩⟩ <;>
      rw [e] at h <;> cases h
    · exact .inl ⟨_, by decide, rfl⟩
    · exact .inl ⟨_, by decide, rfl⟩
    · exact .inl ⟨_, by decide, rfl⟩
    · exact .inr (.inr (.inr (.inr (.inr (.inl ⟨d, rfl, hf, hc, hl, rfl⟩)))))
  | status =>
    cases h
    exact .inr (.inr (.inr (.inr (.inr (.inr ⟨rfl, rfl⟩)))))

/-- Everything a step can do: wait, take ILLEGAL_COMMAND, or execute the command at the port. -/
theorem step_cases (s : State) :
    (decode s.portIn = .wait ∧ step s = .next s) ∨
    (∃ why op rest, decode s.portIn = .illegal why op rest ∧
      step s = .next (takeFault op .illegalCommand { s with portIn := rest })) ∨
    (∃ i rest, decode s.portIn = .command i rest ∧ step s = exec i { s with portIn := rest }) := by
  unfold step
  cases h : decode s.portIn with
  | wait => exact .inl ⟨rfl, rfl⟩
  | illegal why op rest => exact .inr (.inl ⟨why, op, rest, rfl, rfl⟩)
  | command i rest => exact .inr (.inr ⟨i, rest, rfl, rfl⟩)

end Sys2Proof.Machine
end

