-- ==== Sys2Proof/Laws/Operands.lean ====
section
/-!
SUPPORT. ABSORB's operands: the range check over unbounded integers, and the bytes it takes from the window.
-/

namespace Sys2Proof.Machine

theorem rangeOk_eq_true {offset length : BitVec 32} {bufSize : Nat} :
    rangeOk offset length bufSize = true ↔
      0 ≤ offset.toInt ∧ 0 ≤ length.toInt ∧ offset.toInt + length.toInt ≤ (bufSize : Int) := by
  rw [rangeOk, decide_eq_true_iff]

theorem rangeOk_eq_false {offset length : BitVec 32} {bufSize : Nat} :
    rangeOk offset length bufSize = false ↔
      offset.toInt < 0 ∨ length.toInt < 0 ∨ (bufSize : Int) < offset.toInt + length.toInt := by
  rw [rangeOk, decide_eq_false_iff_not]
  omega

/-- In range, ABSORB takes exactly LENGTH bytes (41_sponge_commands.md R144). -/
theorem length_absorbInput {offset length : BitVec 32} {window : List Byte}
    (h : rangeOk offset length window.length = true) :
    (absorbInput offset length window).length = length.toInt.toNat := by
  rw [rangeOk_eq_true] at h
  simp only [absorbInput, memRead, List.length_take, List.length_drop]
  omega

/-- In READY and ABSORBING the invariants keep `fill` below the rate (10_state.md R36). -/
theorem State.Inv.fill_lt_rate {s : State} {d : DigestLength} (h : s.Inv) (hc : s.cfg = some d)
    (hf : s.fsm = .ready ∨ s.fsm = .absorbing) : s.fill < d.rate := by
  obtain ⟨_, _, hready, habsorbing, _, _⟩ := h
  rcases hf with hf | hf
  · rw [(hready hf).2.2]
    exact d.rate_pos
  · exact habsorbing d hc hf

end Sys2Proof.Machine
end

