-- ==== Sys2Proof/Laws/PerInstr.lean ====
section
/-!
SUPPORT. What holds of every command's encoding, one lemma per constructor: its opcode stands in the low byte of word 0
(30_encoding.md R70, R77), and its frame has the length that the opcode fixes (R70, R74).
-/

namespace Sys2Proof.Laws.Framing

open Sys2Proof Sys2Proof.Machine

/-- The frame length of a command: one word, or for ABSORB `4 + ceil(BUFSIZE/4)`. -/
def frameWords : Instr → Nat
  | .config _ => 1
  | .setmode _ => 1
  | .init => 1
  | .absorb _ _ window => 4 + payloadWords window.length
  | .finalize => 1
  | .status => 1

/-- Word 0 carries the opcode, and the frame is as long as R70 says. -/
def Statement (i : Instr) : Prop :=
  (encode i).head?.map opcodeOf = some i.opcode ∧ (encode i).length = frameWords i

theorem low_byte_append (x : BitVec 24) (op : Byte) : (x ++ op).extractLsb' 0 8 = op := by
  refine BitVec.eq_of_getLsbD_eq fun i hi => ?_
  rw [BitVec.getLsbD_extractLsb', Nat.zero_add, decide_eq_true hi, Bool.true_and]
  exact (BitVec.getLsbD_append ..).trans (if_pos hi)

theorem config (bitlen : BitVec 16) : Statement (.config bitlen) :=
  ⟨congrArg some (low_byte_append (bitlen ++ (0 : BitVec 8)) opConfig), rfl⟩

theorem setmode (km : Bool) : Statement (.setmode km) := by
  cases km <;> exact ⟨rfl, rfl⟩

theorem init : Statement .init := ⟨rfl, rfl⟩

theorem absorb (offset length : BitVec 32) (window : List Byte) : Statement (.absorb offset length window) := by
  refine ⟨rfl, ?_⟩
  simp only [encode, frameWords, payloadWords, List.length_append, length_packWords, List.length_cons, List.length_nil]

theorem finalize : Statement .finalize := ⟨rfl, rfl⟩

theorem status : Statement .status := ⟨rfl, rfl⟩

end Sys2Proof.Laws.Framing
end

