-- ==== Sys2Proof/Laws/Permutation.lean ====
section
/-!
SUPPORT. The lanes of each step mapping's result (40_permutation.md R104 to R109), so that no proof unfolds a step.
-/

namespace Sys2Proof.Machine

/-- Lanes are addressed mod 5 in both coordinates (00_scope.md R9). -/
theorem lane_congr (A : Lanes) {x y x' y' : Nat} (hx : x % 5 = x' % 5) (hy : y % 5 = y' % 5) :
    lane A x y = lane A x' y' := by
  simp only [lane, hx, hy]

theorem lane_mod (A : Lanes) (x y : Nat) : lane A (x % 5) (y % 5) = lane A x y :=
  lane_congr A (Nat.mod_mod x 5) (Nat.mod_mod y 5)

/-- Lane `i` is lane `A[i mod 5, i div 5]`. -/
theorem getElem_eq_lane (A : Lanes) (i : Nat) (h : i < 25) : A[i] = lane A (i % 5) (i / 5) := by
  have e : i % 5 % 5 + 5 * (i / 5 % 5) = i := by omega
  simp only [lane, e]

/-- Two states with the same 25 lanes are the same state. -/
theorem lanes_ext {A B : Lanes} (h : ∀ x < 5, ∀ y < 5, lane A x y = lane B x y) : A = B := by
  apply Vector.ext
  intro i hi
  rw [getElem_eq_lane A i hi, getElem_eq_lane B i hi]
  exact h _ (by omega) _ (by omega)

theorem lane_lanesOf (f : Nat → Nat → Lane) (x y : Nat) : lane (lanesOf f) x y = f (x % 5) (y % 5) := by
  have e1 : (x % 5 + 5 * (y % 5)) % 5 = x % 5 := by omega
  have e2 : (x % 5 + 5 * (y % 5)) / 5 = y % 5 := by omega
  simp [lane, lanesOf, e1, e2]

/-- A column's parity (R104). -/
def parityOf (A : Lanes) (x : Nat) : Lane :=
  lane A x 0 ^^^ lane A x 1 ^^^ lane A x 2 ^^^ lane A x 3 ^^^ lane A x 4

theorem parityOf_congr (A : Lanes) {x x' : Nat} (h : x % 5 = x' % 5) : parityOf A x = parityOf A x' := by
  simp only [parityOf, lane_congr A h rfl]

theorem getElem_columnParity (A : Lanes) (x : Nat) (h : x < 5) : (columnParity A)[x] = parityOf A x := by
  simp [columnParity, parityOf]

/-- theta on one lane (R104). -/
theorem lane_thetaStep (A : Lanes) (x y : Nat) :
    lane (thetaStep A) x y = lane A x y ^^^ (parityOf A (x + 4) ^^^ rotl64 (parityOf A (x + 1)) 1) := by
  have e4 : (x % 5 + 5 * (y % 5) + 4) % 5 = (x + 4) % 5 := by omega
  have e1 : (x % 5 + 5 * (y % 5) + 1) % 5 = (x + 1) % 5 := by omega
  have p4 : (columnParity A)[(x + 4) % 5] = parityOf A (x + 4) := by
    rw [getElem_columnParity, parityOf_congr A (Nat.mod_mod (x + 4) 5)]
  have p1 : (columnParity A)[(x + 1) % 5] = parityOf A (x + 1) := by
    rw [getElem_columnParity, parityOf_congr A (Nat.mod_mod (x + 1) 5)]
  rw [← p4, ← p1]
  simp [lane, thetaStep, thetaMask, e4, e1]

/-- pi on one lane (R106). -/
theorem lane_piStep (A : Lanes) (x y : Nat) : lane (piStep A) x y = lane A (x + 3 * y) x := by
  rw [piStep, lane_lanesOf]
  exact lane_congr A (by omega) (by omega)

/-- chi on one lane (R107). -/
theorem lane_chiStep (A : Lanes) (x y : Nat) :
    lane (chiStep A) x y = lane A x y ^^^ (~~~ lane A (x + 1) y &&& lane A (x + 2) y) := by
  rw [chiStep, lane_lanesOf, lane_mod,
    lane_congr A (show (x % 5 + 1) % 5 = (x + 1) % 5 by omega) (Nat.mod_mod y 5),
    lane_congr A (show (x % 5 + 2) % 5 = (x + 2) % 5 by omega) (Nat.mod_mod y 5)]

/-- rho on one lane (R105). -/
theorem lane_rhoStep (A : Lanes) (x y : Nat) :
    lane (rhoStep A) x y = rotl64 (lane A x y) (rotationOffsets[x % 5 + 5 * (y % 5)]) := by
  simp [lane, rhoStep]

theorem getElem_rhoStep (A : Lanes) (i : Nat) (h : i < 25) : (rhoStep A)[i] = rotl64 A[i] rotationOffsets[i] := by
  simp [rhoStep]

/-- iota on one lane (R108). -/
theorem getElem_iotaStep (A : Lanes) (ir : Fin 24) (i : Nat) (h : i < 25) :
    (iotaStep A ir)[i] = if i = 0 then A[0] ^^^ roundConstants[ir] else A[i] := by
  unfold iotaStep
  rw [Vector.getElem_set]
  by_cases h0 : i = 0
  · simp [h0]
  · rw [if_neg (Ne.symm h0), if_neg h0]

/-- The XOR of a block (R113) on one lane. -/
theorem getElem_xorBlock (A : Lanes) (B : List Byte) (laneCount i : Nat) (h : i < 25) :
    (xorBlock A B laneCount)[i] = if i < laneCount then A[i] ^^^ blockLane B i else A[i] := by
  simp [xorBlock]

/-- Bit `k` of a lane goes to bit `(k + n) mod 64` (00_scope.md R10). -/
theorem getLsbD_rotl64 (v : Lane) (n k : Nat) (hk : k < 64) : (rotl64 v n).getLsbD ((k + n) % 64) = v.getLsbD k := by
  have hm := Nat.mod_lt n (show 0 < 64 by omega)
  have hlt : (k + n) % 64 < 64 := Nat.mod_lt _ (by omega)
  unfold rotl64
  rw [BitVec.getLsbD_rotateLeft]
  by_cases h : (k + n) % 64 < n % 64
  · simp only [h, decide_true, cond_true]
    congr 1
    omega
  · simp only [h, decide_false, cond_false]
    simp only [hlt, decide_true, Bool.true_and]
    congr 1
    omega

end Sys2Proof.Machine
end

