-- ==== Sys2Proof/Laws/Run.lean ====
section
/-!
SUPPORT. A run of the engine, one step at a time, in the terms of `Sys2Proof.Machine.step`.
-/

namespace Sys2Proof.Machine

theorem run_zero (s : State) : Sys2Proof.core.run 0 s = .next s := rfl

/-- A run goes on from the state its first step answers. -/
theorem run_succ {s t : State} (n : Nat) (h : step s = .next t) :
    Sys2Proof.core.run (n + 1) s = Sys2Proof.core.run n t := by
  have hs : Sys2Proof.core.step s = .next t := h
  simp only [Host.Core.run, hs]

end Sys2Proof.Machine
end

