-- ==== Sys2Proof/Tests/Slice0.lean ====
section
/-!
SUPPORT. The model's own tests. Expected values come from spec/: the vectors and programs of 95_test_vectors.md, and
words written out from the encodings of 30_encoding.md. The `witness_` theorems show, for each obligation with
hypotheses, concrete states and operands that meet them all, clause by clause, at the ends of their ranges.
-/

namespace Sys2Proof.Tests

open Sys2Proof Sys2Proof.Machine

/-! ## Small states -/

/-- An engine just after CONFIG and SETMODE (R141, R142). -/
def ready (d : DigestLength) (K : Bool) : State := { State.resetWith K with cfg := some d, fsm := .ready }

/-- An engine in ABSORBING with `fill` staged bytes, all of them zero. -/
def absorbing (d : DigestLength) (K : Bool) (fill : Nat) : State :=
  { ready d K with fsm := .absorbing, fill := fill }

/-- An engine in FINALIZED with `fill` as FINALIZE leaves it. -/
def finalized (d : DigestLength) (K : Bool) (fill : Nat) : State :=
  { ready d K with fsm := .finalized, fill := fill }

/-- The words a step of `exec` answers with. -/
def answer (o : Host.Outcome State Fault Refusal) : Option (List Word) := (nextState? o).map State.portOut

/-- STATUS's word for the state that `exec` answers. -/
def statusAfter (o : Host.Outcome State Fault Refusal) : Option Word := (nextState? o).map statusWord

/-! ## WellFormed: the one check, and a term it refuses -/

theorem wellFormed_absorb_replicate (offset length : BitVec 32) (n : Nat) (b : Byte) :
    (Instr.absorb offset length (List.replicate n b)).wellFormed = decide (n < 2 ^ 32) :=
  congrArg (fun k => decide (k < 2 ^ 32)) List.length_replicate

theorem test_wellFormed_refuses_window_past_bufsize :
    (Instr.absorb 0 0 (List.replicate (2 ^ 32) 0)).wellFormed = false :=
  (wellFormed_absorb_replicate 0 0 (2 ^ 32) 0).trans (decide_eq_false (Nat.lt_irrefl _))

theorem test_wellFormed_accepts_empty_window : (Instr.absorb 0 0 []).wellFormed = true := by decide

/-! ## Decode: one word of each constructor, written out from its format (R71 to R74; V-E1 to V-E11) -/

/-- Format C: BITLEN 0000 0001 0000 0000, reserved 00000000, OP 0000 0001. -/
theorem test_decode_config : decode [0b0000000100000000#16 ++ 0b00000000#8 ++ 0b00000001#8] =
    .command (.config 256) [] := by decide

/-- Format M: 23 reserved bits, KM = 1, OP 0000 0010. -/
theorem test_decode_setmode : decode [0b00000000000000000000000#23 ++ 0b1#1 ++ 0b00000010#8] =
    .command (.setmode true) [] := by decide

/-- Format N: 24 reserved bits, OP 0000 0011. -/
theorem test_decode_init : decode [0b000000000000000000000000#24 ++ 0b00000011#8] = .command .init [] := by decide

/-- Format A (V-E7): OFFSET = −1, LENGTH = 1, BUFSIZE = 10, and three payload words. -/
theorem test_decode_absorb :
    decode [0b000000000000000000000000#24 ++ 0b00000100#8, 0xFFFFFFFF, 0x00000001, 0x0000000A,
      0x04030201, 0x08070605, 0x00000A09, 0x00000006] =
    .command (.absorb (-1) 1 [1, 2, 3, 4, 5, 6, 7, 8, 9, 10]) [0x00000006] := by decide

/-- Format N: OP 0000 0101. -/
theorem test_decode_finalize : decode [0b000000000000000000000000#24 ++ 0b00000101#8] =
    .command .finalize [] := by decide

/-- Format N: OP 0000 0110. -/
theorem test_decode_status : decode [0b000000000000000000000000#24 ++ 0b00000110#8] =
    .command .status [] := by decide

/-- V-E10: an ABSORB with reserved bit 8 set frames its six words all the same. -/
theorem test_decode_illegal_absorb :
    decode [0x00000104, 0, 0, 0x00000005, 0, 0, 0x00000003] = .illegal .reservedBits 0x04 [0x00000003] := by decide

/-- The first port byte is the least significant (R70). -/
theorem test_decode_bytes : decodeBytes [0x01, 0x00, 0x80, 0x01, 0x06] = .command (.config 384) [] := by decide

/-- An opcode-table row laid out as the table numbers its bits: OFFSET is bits 63 to 32. -/
theorem test_decode_table_word :
    decodeTableWord 128 0x00000000000000020000000100000004 = some (.absorb 1 2 []) := by decide

/-! ## The permutation (V-TH3, V-RH2, V-PI1, V-CH5, V-IO4, V-RD2) -/

/-- V-TH3. -/
theorem test_theta : thetaStep (zeroLanes.set 7 0x8000000000000001) =
    #v[0, 3, 0, 0x8000000000000001, 0, 0, 3, 0x8000000000000001, 0x8000000000000001, 0,
       0, 3, 0, 0x8000000000000001, 0, 0, 3, 0, 0x8000000000000001, 0, 0, 3, 0, 0x8000000000000001, 0] := by
  decide

/-- V-RH2, the first ten lanes. -/
theorem test_rho : (rhoStep (Vector.replicate 25 0x8000000000000001)).toList.take 10 =
    [0x8000000000000001, 0x3, 0x6000000000000000, 0x18000000, 0xC000000, 0x1800000000, 0x180000000000, 0x60,
     0xC0000000000000, 0x180000] := by
  decide

/-- V-PI1. -/
theorem test_pi : (piStep (Vector.ofFn fun i => BitVec.ofNat 64 i.val)).toList =
    [0, 6, 12, 18, 24] ++ [3, 9, 10, 16, 22] ++ [1, 7, 13, 19, 20] ++ [4, 5, 11, 17, 23] ++ [2, 8, 14, 15, 21] := by
  decide

/-- V-CH5. -/
theorem test_chi : (chiStep (((zeroLanes.set 0 0x0F).set 1 0x33).set 2 0x55)).toList.take 5 =
    [0x4B, 0x33, 0x55, 0x0F, 0x30] := by
  decide

/-- V-IO4. -/
theorem test_iota : iotaStep (zeroLanes.set 0 0xFFFFFFFFFFFFFFFF) 3 = zeroLanes.set 0 0x7FFFFFFF7FFF7FFF := by
  decide

/-- One turn of the LFSR of R101: `R <- 0 ‖ R`, and R[8] folded into R[0], R[4], R[5] and R[6]. -/
def lfsr : Nat → BitVec 8
  | 0 => 1
  | n + 1 => (lfsr n <<< 1) ^^^ (if (lfsr n).getLsbD 7 then 0x71 else 0)

/-- The round constants against their generator (R101). -/
theorem test_roundConstants : ∀ ir : Fin 24, roundConstants[ir] =
    (List.range 7).foldl (init := 0) fun v j =>
      v ||| (BitVec.setWidth 64 (BitVec.ofBool ((lfsr (j + 7 * ir)).getLsbD 0)) <<< (2 ^ j - 1)) := by
  decide

/-- V-RD2. -/
theorem test_round : (keccakRound (keccakRound zeroLanes 0) 1).toList =
    [0x8083, 0x0000100000000000, 0x8000, 0x1, 0x0000100000008000, 0, 0x0000200000200000, 0, 0x0000200000000000,
     0x200000, 0x2, 0x200, 0, 0x202, 0, 0x10000400, 0, 0x400, 0x10000000, 0, 0x0000010000000000, 0,
     0x0000010000000004, 0, 0x4] := by
  decide

/-! ## The commands, two tests each (95_test_vectors.md section 2.5 and the programs of section 3) -/

/-- V-F3, with STATUS after it. -/
theorem test_config_ok : answer (exec (.config 384) (State.resetWith false)) = some [0x00000001] ∧
    statusAfter (exec (.config 384) (State.resetWith false)) = some 0x30680001 := by
  decide

/-- V-F1 and V-F5: a bad length, and SEQUENCE before BAD_DIGEST_LENGTH. -/
theorem test_config_faults : answer (exec (.config 0) (State.resetWith false)) = some [0x00000901] ∧
    answer (exec (.config 999) (ready .bits256 false)) = some [0x00000701] := by
  decide

/-- V-F12: accepted in FINALIZED, which stays. -/
theorem test_setmode_ok : answer (exec (.setmode true) (finalized .bits256 false 1)) = some [0x00000002] ∧
    statusAfter (exec (.setmode true) (finalized .bits256 false 1)) = some 0x20880107 := by
  decide

/-- V-F7 and V-F11 (P4 line 17: K unchanged, LASTFAULT = 3). -/
theorem test_setmode_faults : answer (exec (.setmode false) (State.resetWith false)) = some [0x00000502] ∧
    answer (exec (.setmode true) (absorbing .bits256 false 6)) = some [0x00000702] ∧
    statusAfter (exec (.setmode true) (absorbing .bits256 false 6)) = some 0x20880632 := by
  decide

/-- V-F20: LASTFAULT survives. -/
theorem test_init_ok :
    answer (exec .init { absorbing .bits256 false 9 with lastFault := .sequence }) = some [0x00000003] ∧
    statusAfter (exec .init { absorbing .bits256 false 9 with lastFault := .sequence }) = some 0x20880031 := by
  decide

/-- V-F7. -/
theorem test_init_fault : answer (exec .init (State.resetWith true)) = some [0x00000503] := by decide

/-- P4 line 15 and its end state: a sub-range of the window, staged from cell 0. -/
theorem test_absorb_ok :
    statusAfter (exec (.absorb 4 6 [1, 2, 3, 4, 5, 6, 7, 8, 9, 10]) (ready .bits256 false)) = some 0x20880602 ∧
    (nextState? (exec (.absorb 4 6 [1, 2, 3, 4, 5, 6, 7, 8, 9, 10]) (ready .bits256 false))).map
      (fun s => s.buf.toList.take 7) = some [5, 6, 7, 8, 9, 10, 0] := by
  decide

/-- V-F16 and V-F18: every way out of range, and no wrap of the sum. -/
theorem test_absorb_range :
    answer (exec (.absorb (-1) 1 (List.replicate 10 0)) (ready .bits256 false)) = some [0x00000B04] ∧
    answer (exec (.absorb 0 (-1) (List.replicate 10 0)) (ready .bits256 false)) = some [0x00000B04] ∧
    answer (exec (.absorb 5 6 (List.replicate 10 0)) (ready .bits256 false)) = some [0x00000B04] ∧
    answer (exec (.absorb 11 0 (List.replicate 10 0)) (ready .bits256 false)) = some [0x00000B04] ∧
    answer (exec (.absorb 0x7FFFFFFF 1 []) (ready .bits256 false)) = some [0x00000B04] ∧
    answer (exec (.absorb 10 0 (List.replicate 10 0)) (ready .bits256 false)) = some [0x00000004] := by
  decide

/-- V-SP9 (W3): where the delimiter falls in the last byte of the block, that byte is 0x81 or 0x86. -/
theorem test_finalize_pad_last_byte :
    (padBuffer .bits512 true 71 zeroBuf).toList.drop 70 = 0x00 :: 0x81 :: List.replicate 72 0 ∧
    (padBuffer .bits512 false 71 zeroBuf).toList.drop 70 = 0x00 :: 0x86 :: List.replicate 72 0 := by
  decide +kernel

/-- P3 line 10: SETMODE sha3 in FINALIZED after two SEQUENCE faults. -/
theorem test_status :
    answer (exec .status { finalized .bits512 false 72 with lastFault := .sequence }) =
      some [0x00000006, 0x40484833] := by
  decide

/-- V-F8 and V-F9: ILLEGAL_COMMAND before NOT_CONFIGURED, and OPECHO is bits [7:0]. -/
theorem test_illegal :
    answer (step ((State.resetWith false).deliver [0x80000003])) = some [0x00000303] ∧
    answer (step ((State.resetWith false).deliver [0xFFFFFFFF])) = some [0x000003FF] := by
  decide

/-- `withFetchWord` puts the command in front of what is at the port. -/
theorem test_withFetchWord :
    answer (step (((ready .bits256 true).deliver [0x00000003]).withFetchWord 32 0x00000006)) =
      some [0x00000006, 0x20880005] := by
  decide

/-! ## The assembler (R84, R85) -/

/-- P4 line 10 and P2 line 3. -/
theorem test_assemble_absorb :
    assembleLine "ABSORB -1, 1, hex:0102030405060708090A  ; out of range".toList =
      some [.command (.absorb (-1) 1 [1, 2, 3, 4, 5, 6, 7, 8, 9, 10])] ∧
    assembleLine "absorb 0, 1, \"abc\"".toList = some [.command (.absorb 0 1 [0x61, 0x62, 0x63])] := by
  decide

/-- P6: the expansions, as words. -/
theorem test_assemble_pseudo :
    assemble ["SETUP 256, sha3".toList, "HASH \"Hello\"".toList, ".word 0x00000107".toList] =
      some [0x01000001, 0x00000002, 0x00000003, 0x00000004, 0x00000000, 0x00000005, 0x00000005, 0x6C6C6548,
        0x0000006F, 0x00000005, 0x00000107] := by
  decide

/-! ## Witnesses: the permutation -/

/-- The walk of R102, for the hypotheses of `RhoMovesEachBitByItsLanesOffset`. -/
def rhoWalk : Nat → Nat × Nat
  | 0 => (1, 0)
  | n + 1 => ((rhoWalk n).2, (2 * (rhoWalk n).1 + 3 * (rhoWalk n).2) % 5)

theorem witness_RhoMovesEachBitByItsLanesOffset :
    (0 < 64 ∧ 63 < 64) ∧ rhoWalk 0 = (1, 0) ∧
    (∀ n, rhoWalk (n + 1) = ((rhoWalk n).2, (2 * (rhoWalk n).1 + 3 * (rhoWalk n).2) % 5)) ∧ 0 < 24 ∧ 23 < 24 :=
  ⟨by decide, rfl, fun _ => rfl, by decide, by decide⟩

theorem witness_RoundConstantsAreTheLfsrBits :
    lfsr 0 = 1 ∧ (∀ n, lfsr (n + 1) = (lfsr n <<< 1) ^^^ (if (lfsr n).getLsbD 7 then 0x71 else 0)) ∧ 0 < 64 ∧ 63 < 64 :=
  ⟨rfl, fun _ => rfl, by decide, by decide⟩

theorem witness_ChiUpdatesRowsSimultaneously :
    0 < 64 ∧ 63 < 64 ∧ ∃ (A : Lanes) (y : Fin 5),
      lane A 0 y = 0 ∧ lane A 1 y = 0 ∧ lane A 2 y = 0 ∧ lane A 3 y = 1 ∧ lane A 4 y = 0 :=
  ⟨by decide, by decide, zeroLanes.set 23 1, 4, by decide⟩

theorem witness_IotaChangesLaneZeroAlone : (1 : Fin 25) ≠ 0 ∧ (24 : Fin 25) ≠ 0 := by decide

/-- A sequence of 24 rounds, for the hypotheses of `KeccakFIsAnySequenceOf24Rounds`. -/
def roundsFrom (A : Lanes) : Nat → Lanes
  | 0 => A
  | n + 1 => if h : n < 24 then keccakRound (roundsFrom A n) ⟨n, h⟩ else roundsFrom A n

theorem witness_KeccakFIsAnySequenceOf24Rounds :
    roundsFrom zeroLanes 0 = zeroLanes ∧
    ∀ ir : Fin 24, roundsFrom zeroLanes (ir + 1) = keccakRound (roundsFrom zeroLanes ir) ir :=
  ⟨rfl, fun ir => dif_pos ir.isLt⟩

theorem witness_AbsorbBlockXorsLittleEndianLanesThenPermutes :
    (0 ≤ 25 ∧ ([] : List Byte).length = 8 * 0 ∧ 0 ≤ (24 : Fin 25).val) ∧
    (18 ≤ 25 ∧ (List.replicate 144 (0xA5 : Byte)).length = 8 * 18 ∧
      (List.replicate 144 (0xA5 : Byte))[8 * (17 : Fin 25).val + 7]? = some 0xA5 ∧ 7 < 8 ∧ 18 ≤ (18 : Fin 25).val) ∧
    (25 ≤ 25 ∧ (List.replicate 200 (0xA5 : Byte)).length = 8 * 25 ∧
      (List.replicate 200 (0xA5 : Byte))[8 * (24 : Fin 25).val + 7]? = some 0xA5) := by
  simp

theorem witness_DigestWordsAreLittleEndianLaneBytes :
    (0 < DigestLength.bits224.dlen ∧ 0 / 8 < 25) ∧ (63 < DigestLength.bits512.dlen ∧ 63 / 8 < 25) := by decide

/-! ## Witnesses: the encoding -/

theorem witness_DecodeOfEncodeIsTheCommand :
    (Instr.config 0xFFFF).wellFormed = true ∧ (Instr.setmode true).wellFormed = true ∧ Instr.init.wellFormed = true ∧
    (Instr.absorb (-1) (-1) []).wellFormed = true ∧ (Instr.absorb 0 5 [1, 2, 3, 4, 5]).wellFormed = true ∧
    Instr.finalize.wellFormed = true ∧ Instr.status.wellFormed = true := by decide

theorem witness_DecodedWordsAreTheEncodingOfTheCommand :
    decode [0x00000004, 0, 5, 5, 0x04030201, 0xAAAAAA05, 0x00000006] =
      .command (.absorb 0 5 [1, 2, 3, 4, 5]) [0x00000006] ∧
    decode [0x02000001] = .command (.config 512) [] := by decide

theorem witness_CommandWordsFollowTheMatchAndMaskTable_single :
    ((0xFFFF0001 : Word).extractLsb' 0 8 ≠ 0x04 ∧ (0xFFFF0001 : Word) &&& 0x0000FFFF = 0x00000001) ∧
    ((0x00000102 : Word).extractLsb' 0 8 ≠ 0x04 ∧ (0x00000102 : Word) &&& 0xFFFFFEFF = 0x00000002) ∧
    ((0x00000003 : Word).extractLsb' 0 8 ≠ 0x04 ∧ (0x00000005 : Word).extractLsb' 0 8 ≠ 0x04 ∧
      (0x00000006 : Word).extractLsb' 0 8 ≠ 0x04) ∧
    ((0x00000101 : Word).extractLsb' 0 8 ≠ 0x04 ∧ (0x00000101 : Word) &&& 0x0000FFFF ≠ 0x00000001 ∧
      (0x00000101 : Word) &&& 0xFFFFFEFF ≠ 0x00000002 ∧ (0x00000101 : Word) ≠ 0x00000003 ∧
      (0x00000101 : Word) ≠ 0x00000005 ∧ (0x00000101 : Word) ≠ 0x00000006) := by decide

theorem witness_CommandWordsFollowTheMatchAndMaskTable_absorb :
    ((0x00000004 : Word).extractLsb' 0 8 = 0x04 ∧ ([] : List Word).length = ((0 : Word).toNat + 3) / 4) ∧
    ((0x80000004 : Word).extractLsb' 0 8 = 0x04 ∧ ([7, 8] : List Word).length = ((5 : Word).toNat + 3) / 4 ∧
      (0x80000004 : Word) ≠ 0x00000004) := by decide

theorem witness_DecoderWaitsExactlyOnTruncatedStreams :
    decode [] = .wait ∧ decode [0x00000004, 0, 0] = .wait ∧ decode [0x00000004, 0, 0, 5, 7] = .wait ∧
    (0x00000005 : Word).extractLsb' 0 8 ≠ 0x04 := by decide

theorem witness_PayloadBytesAreTheWindowAndPaddingIsIgnored :
    ([0xFF636261, 0x000000FF] : List Word).length = ((5 : Word).toNat + 3) / 4 ∧
    ([0xFF636261, 0xABCDEFFF] : List Word).length = ((5 : Word).toNat + 3) / 4 ∧
    ∀ j < (5 : Word).toNat,
      (([0xFF636261, 0x000000FF] : List Word)[j / 4]?).map (fun w => w.extractLsb' (8 * (j % 4)) 8) =
        (([0xFF636261, 0xABCDEFFF] : List Word)[j / 4]?).map fun w => w.extractLsb' (8 * (j % 4)) 8 := by decide

/-! ## Witnesses: a step -/

theorem witness_StepExecutesTheDecodedCommand :
    decode ((ready .bits256 true).deliver [0x00000005, 0x00000006]).portIn = .command .finalize [0x00000006] ∧
    (Instr.absorb 0 1 [7]).wellFormed = true ∧
    ((ready .bits256 true).deliver (encode (.absorb 0 1 [7]) ++ [0x00000006])).portIn =
      encode (.absorb 0 1 [7]) ++ [0x00000006] := by decide

theorem witness_IllegalCommandWordsFault_single :
    ((ready .bits256 true).deliver [0x00000007, 0x00000006]).portIn = 0x00000007 :: [0x00000006] ∧
    ((0xFFFFFF00 : Word).extractLsb' 0 8 = 0x00 ∧ 0x07 ≤ ((0x00000007 : Word).extractLsb' 0 8).toNat ∧
      0x07 ≤ ((0x000000FF : Word).extractLsb' 0 8).toNat) ∧
    ((0x01000101 : Word).extractLsb' 0 8 = 0x01 ∧ (0x01000101 : Word).extractLsb' 8 8 ≠ 0) ∧
    ((0x00000202 : Word).extractLsb' 0 8 = 0x02 ∧ (0x00000202 : Word).extractLsb' 9 23 ≠ 0) ∧
    ((0x80000003 : Word).extractLsb' 0 8 = 0x03 ∧ (0x80000003 : Word).extractLsb' 8 24 ≠ 0) ∧
    ((0x00000105 : Word).extractLsb' 0 8 = 0x05 ∧ (0x00000105 : Word).extractLsb' 8 24 ≠ 0) ∧
    ((0x00000106 : Word).extractLsb' 0 8 = 0x06 ∧ (0x00000106 : Word).extractLsb' 8 24 ≠ 0) := by decide

theorem witness_IllegalCommandWordsFault_absorb :
    ((State.resetWith false).deliver [0x00000104, 0, 0, 5, 7, 8, 0x00000006]).portIn =
      0x00000104 :: 0 :: 0 :: 5 :: ([7, 8] ++ [0x00000006]) ∧
    ([7, 8] : List Word).length = ((5 : Word).toNat + 3) / 4 ∧
    (0x00000104 : Word).extractLsb' 0 8 = 0x04 ∧ (0x00000104 : Word).extractLsb' 8 24 ≠ 0 := by decide

theorem witness_EngineWaitsWithoutAWholeCommand :
    (State.resetWith true).portIn = [] ∧
    (((State.resetWith true).deliver [0x00000004, 0, 0]).portIn = 0x00000004 :: [0, 0] ∧
      (0x00000004 : Word).extractLsb' 0 8 = 0x04 ∧ ([0, 0] : List Word).length < 3) ∧
    (((State.resetWith true).deliver [0x00000004, 0, 0, 5, 7]).portIn = 0x00000004 :: 0 :: 0 :: 5 :: [7] ∧
      ([7] : List Word).length < ((5 : Word).toNat + 3) / 4) := by decide

/-! ## Witnesses: the commands -/

theorem witness_ConfigConstructsOrFaults :
    (State.resetWith true).fsm = .unconfigured ∧
    ((224 : BitVec 16).toNat = DigestLength.bits224.bits ∧ (256 : BitVec 16).toNat = DigestLength.bits256.bits ∧
      (384 : BitVec 16).toNat = DigestLength.bits384.bits ∧ (512 : BitVec 16).toNat = DigestLength.bits512.bits) ∧
    ((223 : BitVec 16).toNat ∉ [224, 256, 384, 512] ∧ (0xFFFF : BitVec 16).toNat ∉ [224, 256, 384, 512]) ∧
    ((ready .bits224 false).fsm ≠ .unconfigured ∧ (finalized .bits512 true 72).fsm ≠ .unconfigured) ∧
    (512 : BitVec 16).toNat ∈ [224, 256, 384, 512] := by decide

theorem witness_SetmodeWritesThePaddingModeOrFaults :
    ((ready .bits224 false).fsm = .ready ∨ (ready .bits224 false).fsm = .finalized) ∧
    ((finalized .bits512 true 72).fsm = .ready ∨ (finalized .bits512 true 72).fsm = .finalized) ∧
    (State.resetWith false).fsm = .unconfigured ∧ (absorbing .bits384 false 0).fsm = .absorbing := by decide

theorem witness_InitClearsTheSessionOrFaults :
    (ready .bits224 false).fsm ≠ .unconfigured ∧ (absorbing .bits512 true 71).fsm ≠ .unconfigured ∧
    (finalized .bits512 true 72).fsm ≠ .unconfigured ∧ (State.resetWith false).fsm = .unconfigured := by
  decide

theorem witness_AbsorbTakesInTheInputOrFaults_frame :
    ([] : List Word).length = ((0 : Word).toNat + 3) / 4 ∧ ([7, 8] : List Word).length = ((5 : Word).toNat + 3) / 4 := by
  decide

theorem witness_AbsorbTakesInTheInputOrFaults_faults :
    (State.resetWith false).fsm = .unconfigured ∧ (finalized .bits256 false 1).fsm = .finalized ∧
    ((ready .bits256 false).fsm = .ready ∨ (ready .bits256 false).fsm = .absorbing) ∧
    ((0x80000000 : BitVec 32).toInt < 0 ∧ (-1 : BitVec 32).toInt < 0 ∧
      (([1, 2] : List Byte).length : Int) < (1 : BitVec 32).toInt + (2 : BitVec 32).toInt ∧
      (([] : List Byte).length : Int) < (0x7FFFFFFF : BitVec 32).toInt + (0x7FFFFFFF : BitVec 32).toInt) := by
  decide

theorem witness_AbsorbTakesInTheInputOrFaults_runs :
    ((absorbing .bits512 false 72).fsm = .ready ∨ (absorbing .bits512 false 72).fsm = .absorbing) ∧
    (absorbing .bits512 false 72).cfg = some .bits512 ∧
    (absorbing .bits512 false 72).fill = DigestLength.bits512.rate ∧
    (absorbing .bits512 false 71).fill < DigestLength.bits512.rate ∧
    (ready .bits224 true).fill < DigestLength.bits224.rate ∧
    (0 ≤ (2 : BitVec 32).toInt ∧ 0 ≤ (0 : BitVec 32).toInt ∧
      (2 : BitVec 32).toInt + (0 : BitVec 32).toInt ≤ (([1, 2] : List Byte).length : Int)) ∧
    (0 ≤ (0 : BitVec 32).toInt ∧ 0 ≤ (2 : BitVec 32).toInt ∧
      (0 : BitVec 32).toInt + (2 : BitVec 32).toInt ≤ (([1, 2] : List Byte).length : Int) ∧
      (2 : BitVec 32) ≠ 0) := by
  decide

theorem witness_FinalizePadsAbsorbsOnceAndAnswersOrFaults :
    (State.resetWith false).fsm = .unconfigured ∧ (finalized .bits256 false 1).fsm = .finalized ∧
    ((absorbing .bits512 false 72).fsm = .absorbing ∧ (absorbing .bits512 false 72).cfg = some .bits512 ∧
      (absorbing .bits512 false 72).fill = DigestLength.bits512.rate) ∧
    ((absorbing .bits512 true 71).fsm = .absorbing ∧ (absorbing .bits512 true 71).fill = DigestLength.bits512.rate - 1 ∧
      (absorbing .bits512 true 71).fill < DigestLength.bits512.rate) ∧
    ((ready .bits224 false).fsm = .ready ∧ (ready .bits224 false).cfg = some .bits224 ∧
      (ready .bits224 false).fill < DigestLength.bits224.rate) := by
  decide

theorem witness_StatusAnswersTheStatusRegister :
    (State.resetWith true).fill ≤ 144 ∧ (finalized .bits224 true 144).fill ≤ 144 := by decide

theorem witness_StatusFieldsAreViewsOfTheState :
    (State.resetWith true).fill ≤ 144 ∧ (finalized .bits224 true 144).fill ≤ 144 := by decide

/-! ## Witnesses: faults, responses and transitions -/

theorem witness_FirstApplicableFaultIsReported_illegal :
    decode ((State.resetWith false).deliver [0x80000003]).portIn = .illegal .reservedBits 0x03 [] := by decide

/-- NOT_CONFIGURED, the first cause a command can have. -/
theorem witness_FirstApplicableFaultIsReported_notConfigured :
    FaultApplies (State.resetWith false) .init .notConfigured := by
  simp [FaultApplies, State.resetWith]

/-- SEQUENCE, with a bad length as well. -/
theorem witness_FirstApplicableFaultIsReported_sequence :
    FaultApplies (ready .bits256 false) (.config 999) .sequence ∧
    FaultApplies (ready .bits256 false) (.config 999) .badDigestLength ∧
    ¬ FaultApplies (ready .bits256 false) (.config 999) .notConfigured := by
  simp [FaultApplies, ready]

/-- BAD_DIGEST_LENGTH alone. -/
theorem witness_FirstApplicableFaultIsReported_badDigestLength :
    FaultApplies (State.resetWith false) (.config 999) .badDigestLength ∧
    ¬ FaultApplies (State.resetWith false) (.config 999) .sequence := by
  simp [FaultApplies, State.resetWith]

/-- BAD_RANGE, with a full buffer as well. -/
theorem witness_FirstApplicableFaultIsReported_badRange :
    FaultApplies (absorbing .bits512 false 72) (.absorb (-1) 1 [7]) .badRange ∧
    FaultApplies (absorbing .bits512 false 72) (.absorb (-1) 1 [7]) .invariant ∧
    ¬ FaultApplies (absorbing .bits512 false 72) (.absorb (-1) 1 [7]) .sequence := by
  simp [FaultApplies, ready, absorbing, DigestLength.rate, DigestLength.bits]

/-- INVARIANT, with no cause before it. -/
theorem witness_FirstApplicableFaultIsReported_invariant :
    FaultApplies (absorbing .bits512 false 72) .finalize .invariant ∧
    ¬ FaultApplies (absorbing .bits512 false 72) .finalize .notConfigured ∧
    ¬ FaultApplies (absorbing .bits512 false 72) .finalize .sequence := by
  simp [FaultApplies, ready, absorbing, DigestLength.rate, DigestLength.bits]

theorem witness_FirstApplicableFaultIsReported_states :
    (((State.resetWith false).cfg = none ↔ (State.resetWith false).fsm = .unconfigured) ∧
      ∀ d ∈ (State.resetWith false).cfg, (State.resetWith false).fill ≤ d.rate) ∧
    (((absorbing .bits512 false 72).cfg = none ↔ (absorbing .bits512 false 72).fsm = .unconfigured) ∧
      ∀ d ∈ (absorbing .bits512 false 72).cfg, (absorbing .bits512 false 72).fill ≤ d.rate) ∧
    ∀ c, ¬ FaultApplies (State.resetWith false) .status c := by
  refine ⟨⟨by decide, by simp [State.resetWith]⟩, ⟨by decide, ?_⟩, fun c => ?_⟩
  · intro d hd
    cases hd
    decide
  · exact id

theorem witness_EveryCommandGetsOneResponse_illegal :
    decode ((ready .bits256 true).deliver [0x00000106]).portIn = .illegal .reservedBits 0x06 [] := by decide

theorem witness_EveryCommandGetsOneResponse :
    answer (exec .status (State.resetWith true)) = some [0x00000006, 0x00000004] ∧
    (0x00000006 : Word).getLsbD 8 = false ∧
    answer (exec .init (State.resetWith true)) = some [0x00000503] ∧ (0x00000503 : Word).getLsbD 8 = true := by
  decide

/-- States with the invariants, one for each session state, at the ends of `fill`'s ranges. -/
theorem witness_invariants :
    (State.resetWith true).Inv ∧ (ready .bits224 false).Inv ∧ (absorbing .bits384 true 0).Inv ∧
    (absorbing .bits512 true 71).Inv ∧ (finalized .bits256 false 1).Inv ∧ (finalized .bits512 true 72).Inv := by
  refine ⟨?_, ?_, ?_, ?_, ?_, ?_⟩ <;>
    simp [State.Inv, State.Cleared, ready, absorbing, finalized, State.resetWith, zeroBuf, DigestLength.rate,
      DigestLength.bits]

/-- The invariants say nothing of the port and of `lastFault`. -/
theorem inv_deliver {s : State} (h : s.Inv) (ws : List Word) (c : FaultCode) :
    (State.deliver ws s).Inv ∧ State.Inv { s with lastFault := c } := ⟨h, h⟩

theorem witness_SessionTransitionsFollowTheTable :
    (State.resetWith true).Inv ∧ (nextState? (exec (.config 512) (State.resetWith true))).isSome = true ∧
    (ready .bits224 false).Inv ∧
    (nextState? (exec (.absorb 0 1 [7]) (ready .bits224 false))).isSome = true :=
  ⟨witness_invariants.1, by decide, witness_invariants.2.1, by decide +kernel⟩

theorem witness_StepKeepsTheInvariants :
    ((ready .bits224 false).deliver [0x00000102]).Inv ∧
    (nextState? (step ((ready .bits224 false).deliver [0x00000102]))).isSome = true :=
  ⟨(inv_deliver witness_invariants.2.1 _ .noFault).1, by decide⟩

theorem witness_StepAlwaysAnswersUnderTheInvariants : (finalized .bits512 true 72).Inv := witness_invariants.2.2.2.2.2

/-- The conclusion's premise, a `lastFault` of INVARIANT, is met in a state that already had it. -/
theorem witness_InvariantFaultIsUnreachable :
    State.Inv { ready .bits224 false with lastFault := .invariant } ∧
    (nextState? (step { ready .bits224 false with lastFault := .invariant })).map State.lastFault =
      some .invariant :=
  ⟨(inv_deliver witness_invariants.2.1 [] _).2, by decide⟩

/-! ## Witnesses: whole-machine rules -/

theorem witness_OnlySetmodeWritesThePaddingMode :
    (nextState? (step ((ready .bits256 false).deliver [0x00000102]))).map State.K = some true := by decide

theorem witness_ConfigurationIsFixedForLife :
    ((State.resetWith false).deliver [0x01000001]).Inv ∧
    (nextState? (step ((State.resetWith false).deliver [0x01000001]))).map State.cfg = some (some .bits256) ∧
    ((ready .bits224 false).deliver [0x01000001, 0x00000003]).Inv ∧
    (ready .bits224 false).cfg = some .bits224 ∧
    (nextState? (Sys2Proof.core.run 2 ((ready .bits224 false).deliver [0x01000001, 0x00000003]))).isSome = true := by
  refine ⟨(inv_deliver ?_ _ .noFault).1, by decide, (inv_deliver witness_invariants.2.1 _ .noFault).1, rfl, by decide⟩
  simp [State.Inv, State.Cleared, State.resetWith]

theorem witness_LanesChangeOnlyByAbsorbBlockOrClearing :
    (nextState? (step ((ready .bits224 false).deliver [0x00000003]))).isSome = true ∧
    decode ((ready .bits224 false).deliver [0x00000005]).portIn = .command .finalize [] ∧
    (nextState? (step ((ready .bits224 false).deliver [0x00000006]))).isSome = true := by decide

theorem witness_InstancesDoNotInterfere :
    (0 : Fin 2) ≠ 1 ∧
    (nextState? (step ((ready .bits224 false).deliver [0x00000003]))).isSome = true ∧
    (nextState? (step ((State.resetWith false).deliver [0x01000001]))).isSome = true := by decide

theorem witness_StaleBufferBytesAreUnobservable :
    (absorbing .bits512 false 3).SameButStale
      { absorbing .bits512 false 3 with buf := (absorbing .bits512 false 3).buf.set 3 0xFF } ∧
    (nextState? (exec .init (absorbing .bits512 false 3))).isSome = true := by
  refine ⟨⟨rfl, rfl, rfl, rfl, rfl, rfl, rfl, fun j hj => ?_⟩, by decide⟩
  exact (Vector.getElem_set_ne (i := 3) (by omega) (by omega) (Nat.ne_of_gt hj)).symm

theorem witness_InitIsAsGoodAsAFreshInstance :
    ((finalized .bits512 true 72).fsm ≠ .unconfigured ∧ (finalized .bits512 true 72).cfg = some .bits512) ∧
    (ready .bits256 false).SameSession { ready .bits256 false with lastFault := .badRange } ∧
    (nextState? (exec .status (ready .bits256 false))).isSome = true ∧ Instr.init ≠ .status := by
  refine ⟨by decide, ⟨rfl, rfl, rfl, rfl, rfl, rfl⟩, by decide +kernel, by decide⟩

/-! ## Witnesses: the sponge -/

/-- A READY engine has absorbed the empty message; an ABSORBING one may hold the last byte before a block is full. -/
theorem witness_AbsorbExtendsTheMessage :
    ((State.resetWith true).fsm = .unconfigured ∧ (512 : BitVec 16).toNat = DigestLength.bits512.bits) ∧
    (finalized .bits512 true 72).fsm ≠ .unconfigured ∧
    (ready .bits512 true).HasAbsorbed .bits512 [] ∧
    (absorbing .bits512 true 71).HasAbsorbed .bits512 (List.replicate 71 0) ∧
    (0 ≤ (0 : BitVec 32).toInt ∧ 0 ≤ (1 : BitVec 32).toInt ∧
      (0 : BitVec 32).toInt + (1 : BitVec 32).toInt ≤ (([7] : List Byte).length : Int)) := by
  refine ⟨by decide, by decide, ⟨rfl, .inl rfl, rfl, rfl, rfl⟩, ⟨rfl, .inr rfl, ?_, ?_, ?_⟩, by decide⟩ <;>
    decide

theorem witness_FinalizeAnswersTheSpongeDigest :
    (ready .bits512 true).HasAbsorbed .bits512 [] ∧
    (absorbing .bits512 true 71).HasAbsorbed .bits512 (List.replicate 71 0) :=
  ⟨witness_AbsorbExtendsTheMessage.2.2.1, witness_AbsorbExtendsTheMessage.2.2.2.1⟩

theorem witness_ChunkedSessionAnswersTheDigestOfTheWhole :
    ((ready .bits256 false).fsm = .ready ∧ (ready .bits256 false).cfg = some .bits256 ∧
      (ready .bits256 false).Cleared) ∧
    (∀ c ∈ ([[0x61], [], [0x62, 0x63]] : List (List Byte)), c.length < 2 ^ 31) ∧
    ((ready .bits256 false).deliver
        (([[0x61], [], [0x62, 0x63]] : List (List Byte)).flatMap
          (fun c => encode (.absorb 0 (BitVec.ofNat 32 c.length) c)) ++ encode .finalize ++ [])).portIn =
      [0x00000004, 0, 1, 1, 0x00000061, 0x00000004, 0, 0, 0, 0x00000004, 0, 2, 2, 0x00006362, 0x00000005] := by
  refine ⟨⟨rfl, rfl, rfl, rfl, rfl⟩, by simp, by decide⟩

theorem witness_HashAnswersTheDigestOfItsWindow :
    (finalized .bits256 false 1).fsm ≠ .unconfigured ∧ (finalized .bits256 false 1).cfg = some .bits256 ∧
    ([0x61, 0x62, 0x63] : List Byte).length < 2 ^ 31 ∧
    ((finalized .bits256 false 1).deliver ((hashExpansion [0x61, 0x62, 0x63]).flatMap encode ++ [6])).portIn =
      [0x00000003, 0x00000004, 0, 3, 3, 0x00636261, 0x00000005, 6] := by decide

theorem witness_EmptyMessagePermutesOnePaddedBlock :
    (ready .bits384 true).fsm = .ready ∧ (ready .bits384 true).cfg = some .bits384 ∧ (ready .bits384 true).Cleared :=
  ⟨rfl, rfl, rfl, rfl, rfl⟩

/-! ## One whole digest (V-SP2, P1 line 7), last because the kernel evaluates all 24 rounds for it -/

theorem test_finalize_digest : answer (exec .finalize (ready .bits256 false)) =
    some [0x00000005, 0xF8C6FFA7, 0x66D71EBF, 0x5647C151, 0x62D661A0, 0x4DFF80F5, 0xFA493BE4, 0x4B0AD882,
      0x4A43F880] := by
  decide +kernel

end Sys2Proof.Tests
end

section
/-!
PROOFS. The family of 10_state.md: STATUS as a view of the state (R30), hardware reset (R35), and what a step can do
to `cfg` (R23) and to the lanes (R21).
-/

namespace Sys2Proof.Machine

/-! The fields of the STATUS word, from bit 0 up (10_state.md R30). -/

@[simp] theorem statusWord_fsmField (s : State) : (statusWord s).extractLsb' 0 2 = s.fsm.code := by
  simp (disch := decide) only [statusWord, BitVec.extractLsb'_append_eq_of_add_le, BitVec.extractLsb'_eq_self]

theorem statusWord_paddingModeBit (s : State) : (statusWord s).getLsbD 2 = s.K := by
  simp only [statusWord, BitVec.getLsbD_append]
  simp

theorem statusWord_reservedBit3 (s : State) : (statusWord s).getLsbD 3 = false := by
  simp only [statusWord, BitVec.getLsbD_append]
  simp

@[simp] theorem statusWord_lastFaultField (s : State) : (statusWord s).extractLsb' 4 3 = s.lastFault.code := by
  simp (disch := decide) only [statusWord, BitVec.extractLsb'_append_eq_of_add_le,
    BitVec.extractLsb'_append_eq_of_le, Nat.reduceSub, BitVec.extractLsb'_eq_self]

theorem statusWord_reservedBit7 (s : State) : (statusWord s).getLsbD 7 = false := by
  simp only [statusWord, BitVec.getLsbD_append]
  simp

@[simp] theorem statusWord_fillField (s : State) : (statusWord s).extractLsb' 8 8 = BitVec.ofNat 8 s.fill := by
  simp (disch := decide) only [statusWord, BitVec.extractLsb'_append_eq_of_add_le,
    BitVec.extractLsb'_append_eq_of_le, Nat.reduceSub, BitVec.extractLsb'_eq_self]

@[simp] theorem statusWord_rateField (s : State) :
    (statusWord s).extractLsb' 16 8 = BitVec.ofNat 8 (rateOrZero s.cfg) := by
  simp (disch := decide) only [statusWord, BitVec.extractLsb'_append_eq_of_add_le,
    BitVec.extractLsb'_append_eq_of_le, Nat.reduceSub, BitVec.extractLsb'_eq_self]

@[simp] theorem statusWord_dlenField (s : State) :
    (statusWord s).extractLsb' 24 8 = BitVec.ofNat 8 (dlenOrZero s.cfg) := by
  simp (disch := decide) only [statusWord, BitVec.extractLsb'_append_eq_of_le, Nat.reduceSub,
    BitVec.extractLsb'_eq_self]

theorem rateOrZero_le (c : Option DigestLength) : rateOrZero c ≤ 144 := by
  cases c with
  | none => exact Nat.zero_le _
  | some d => exact d.rate_le

theorem dlenOrZero_le (c : Option DigestLength) : dlenOrZero c ≤ 144 := by
  cases c with
  | none => exact Nat.zero_le _
  | some d => exact d.dlen_lt_rate.le.trans d.rate_le

/-- A byte count of the engine is at most `RATE_MAX`, so its 8-bit field shows it whole. -/
theorem toNat_byte_of_le_rateMax {n : Nat} (h : n ≤ 144) : (BitVec.ofNat 8 n).toNat = n :=
  Nat.mod_eq_of_lt (show n < 2 ^ 8 by omega)

/-- Settles O28: each field's lemma, and no byte count is cut by its 8-bit field. -/
theorem statusFieldsAreViewsOfTheState : Obligations.StatusFieldsAreViewsOfTheState := by
  intro s hfill
  simp only [statusWord_fsmField, statusWord_paddingModeBit, statusWord_reservedBit3, statusWord_lastFaultField,
    statusWord_reservedBit7, statusWord_fillField, statusWord_rateField, statusWord_dlenField,
    toNat_byte_of_le_rateMax hfill, toNat_byte_of_le_rateMax (rateOrZero_le s.cfg),
    toNat_byte_of_le_rateMax (dlenOrZero_le s.cfg), true_and]
  refine ⟨?_, ?_, ?_⟩
  · cases s.fsm <;> rfl
  · cases s.cfg <;> rfl
  · cases s.cfg <;> rfl

/-- STATUS right after hardware reset shows `K` alone (10_state.md R35). -/
theorem statusWord_resetWith (k : Bool) : statusWord (State.resetWith k) = if k then 4 else 0 := by
  cases k <;> rfl

/-- Settles O32, field by field. -/
theorem hardwareResetLeavesTheSpecifiedValues : Obligations.HardwareResetLeavesTheSpecifiedValues := by
  refine ⟨fun k => ⟨fun i => ?_, rfl, fun j => ?_, rfl, rfl, rfl, rfl, statusWord_resetWith k⟩, rfl⟩
  · simp [zeroLanes]
  · simp [zeroBuf]

/-! What a step that answers does, in the terms of the command's own effect. -/

/-- A step that answers waited, took ILLEGAL_COMMAND, or executed the command at the port. -/
theorem step_next_cases {s t : State} (h : step s = .next t) :
    t = s ∨ (∃ op rest, t = takeFault op .illegalCommand { s with portIn := rest }) ∨
      ∃ i rest, decode s.portIn = .command i rest ∧ exec i { s with portIn := rest } = .next t := by
  rcases step_cases s with ⟨_, e⟩ | ⟨_, op, rest, _, e⟩ | ⟨i, rest, hd, e⟩ <;> rw [e] at h
  · cases h
    exact .inl rfl
  · cases h
    exact .inr (.inl ⟨op, rest, rfl⟩)
  · exact .inr (.inr ⟨i, rest, hd, h⟩)

/-- A run that answers takes a first step that answers, and goes on from there. -/
theorem step_of_run_succ {n : Nat} {s t : State} (h : Sys2Proof.core.run (n + 1) s = .next t) :
    ∃ u, step s = .next u ∧ Sys2Proof.core.run n u = .next t := by
  have hs : Sys2Proof.core.step s = step s := rfl
  cases hstep : step s with
  | next u => exact ⟨u, rfl, (run_succ n hstep).symm.trans h⟩
  | fault r => simp [Host.Core.run, hs, hstep] at h
  | refused r => simp [Host.Core.run, hs, hstep] at h

/-- What holds of a state and is kept by every step holds after any run that answers. -/
theorem run_induction {P : State → Prop} (hstep : ∀ s t, P s → step s = .next t → P t) {n : Nat} {s t : State}
    (hs : P s) (h : Sys2Proof.core.run n s = .next t) : P t := by
  induction n generalizing s with
  | zero =>
    cases (run_zero s).symm.trans h
    exact hs
  | succ n ih =>
    obtain ⟨u, hu, hrun⟩ := step_of_run_succ h
    exact ih (hstep s u hs hu) hrun

/-! The configuration (10_state.md R23). -/

/-- A command leaves `cfg` and configures nothing anew, or it is the CONFIG that writes it, in UNCONFIGURED. -/
theorem exec_cfg {i : Instr} {s t : State} (h : exec i s = .next t) :
    (t.cfg = s.cfg ∧ (t.fsm = .unconfigured ↔ s.fsm = .unconfigured)) ∨
      ∃ b d, i = .config b ∧ s.fsm = .unconfigured ∧ digestLengthOf b = some d ∧ t.cfg = some d := by
  have hconfigured (hf : s.fsm = .ready ∨ s.fsm = .absorbing) : s.fsm ≠ .unconfigured := by
    rcases hf with hf | hf <;> simp [hf]
  rcases exec_cases h with ⟨_, _, rfl⟩ | ⟨b, d, rfl, hf, hd, rfl⟩ | ⟨_, _, _, rfl⟩ | ⟨_, hf, rfl⟩ |
    ⟨_, _, _, _, _, hf, _, _, _, ⟨_, rfl⟩ | ⟨_, rfl⟩⟩ | ⟨_, _, hf, _, _, rfl⟩ | ⟨_, rfl⟩
  · exact .inl ⟨rfl, .rfl⟩
  · exact .inr ⟨b, d, rfl, hf, hd, rfl⟩
  · exact .inl ⟨rfl, .rfl⟩
  · exact .inl ⟨rfl, by simp [hf]⟩
  · exact .inl ⟨rfl, .rfl⟩
  · exact .inl ⟨by simp, by simp [hconfigured hf]⟩
  · exact .inl ⟨rfl, by simp [hconfigured hf]⟩
  · exact .inl ⟨rfl, .rfl⟩

/-- The same of a step. -/
theorem step_cfg {s t : State} (h : step s = .next t) :
    (t.cfg = s.cfg ∧ (t.fsm = .unconfigured ↔ s.fsm = .unconfigured)) ∨
      ∃ b rest d, decode s.portIn = .command (.config b) rest ∧ s.fsm = .unconfigured ∧
        digestLengthOf b = some d ∧ t.cfg = some d := by
  rcases step_next_cases h with rfl | ⟨_, _, rfl⟩ | ⟨i, rest, hdec, hexec⟩
  · exact .inl ⟨rfl, .rfl⟩
  · exact .inl ⟨rfl, .rfl⟩
  · rcases exec_cfg hexec with hsame | ⟨b, d, rfl, hf, hd, hc⟩
    · exact .inl hsame
    · exact .inr ⟨b, rest, d, hdec, hf, hd, hc⟩

/-- The engine is configured with `d`: the part of the invariants (10_state.md R36, item 1) that fixes `cfg`. -/
def State.ConfiguredWith (d : DigestLength) (s : State) : Prop := s.cfg = some d ∧ s.fsm ≠ .unconfigured

theorem State.Inv.configuredWith {d : DigestLength} {s : State} (h : s.Inv) (hc : s.cfg = some d) :
    s.ConfiguredWith d := by
  refine ⟨hc, fun hf => ?_⟩
  rw [h.1.mpr hf] at hc
  cases hc

/-- CONFIG faults outside UNCONFIGURED, so no step configures a second time. -/
theorem step_configuredWith {d : DigestLength} {s t : State} (hs : s.ConfiguredWith d) (h : step s = .next t) :
    t.ConfiguredWith d := by
  obtain ⟨hc, hf⟩ := hs
  rcases step_cfg h with ⟨hcfg, hfsm⟩ | ⟨_, _, _, _, hun, _⟩
  · exact ⟨hcfg.trans hc, mt hfsm.mp hf⟩
  · exact absurd hun hf

/-- Settles O39: only CONFIG in UNCONFIGURED writes `cfg`, and no step of a run leaves `ConfiguredWith`. -/
theorem configurationIsFixedForLife : Obligations.ConfigurationIsFixedForLife := by
  refine ⟨resetWith_cfg, fun d => ?_, fun s t hinv h => ?_, fun n s t d hinv hc h => ?_⟩
  · cases d <;> decide
  · rcases step_cfg h with ⟨hcfg, _⟩ | ⟨b, rest, d, hdec, hf, hd, hc⟩
    · exact .inl hcfg
    · exact .inr ⟨b, rest, d, hdec, hinv.1.mpr hf, digestLengthOf_eq_some.mp hd, hc⟩
  · exact (run_induction (fun _ _ => step_configuredWith) (hinv.configuredWith hc) h).1

/-! The lanes (10_state.md R21). -/

/-- The lanes of `t` are those of `s` after AbsorbBlock on whole blocks, as many as FINALIZE or ABSORB takes. -/
def AbsorbsWholeBlocks (i : Instr) (s t : State) : Prop :=
  ∃ d blocks, s.cfg = some d ∧
    (i = .finalize ∧ blocks.length = 1 ∨
      ∃ offset length window, i = .absorb offset length window ∧
        blocks.length = (s.fill + length.toInt.toNat) / d.rate) ∧
    (∀ B ∈ blocks, B.length = d.rate) ∧ t.A = absorbAll d s.A blocks

/-- FINALIZE absorbs the padded buffer, one block of `rate` bytes (41_sponge_commands.md R145). -/
theorem finalize_absorbsWholeBlocks {d : DigestLength} {s : State} (hc : s.cfg = some d) (data : List Word) :
    AbsorbsWholeBlocks .finalize s (respondOk opFinalize data (finalizeSponge d s)) := by
  refine ⟨d, [readBytes (padBuffer d s.K s.fill s.buf) d.rate], hc, .inl ⟨rfl, rfl⟩, fun B hB => ?_, rfl⟩
  rw [List.mem_singleton.mp hB]
  exact length_readBytes d.rate_le

/-- ABSORB absorbs the full blocks of the staged bytes and the input (41_sponge_commands.md R144). -/
theorem absorb_absorbsWholeBlocks {d : DigestLength} {s : State} {offset length : BitVec 32} {window : List Byte}
    (hr : rangeOk offset length window.length = true) (hc : s.cfg = some d) (hlt : s.fill < d.rate) :
    AbsorbsWholeBlocks (.absorb offset length window) s
      (respondOk opAbsorb [] (absorbBytes d (absorbInput offset length window) s)) := by
  refine ⟨d, fullBlocks d.rate (readBytes s.buf s.fill ++ absorbInput offset length window), hc,
    .inr ⟨offset, length, window, rfl, ?_⟩, fun _ => length_of_mem_fullBlocks, (absorbBytes_spec hlt).1⟩
  rw [length_fullBlocks, length_staged_append hlt d.rate_le, length_absorbInput hr]

/-- What a command does to the lanes. -/
theorem exec_lanes {i : Instr} {s t : State} (h : exec i s = .next t) :
    t.A = s.A ∨ (t.A = zeroLanes ∧ (i = .init ∨ ∃ b, i = .config b)) ∨ AbsorbsWholeBlocks i s t := by
  rcases exec_cases h with ⟨_, _, rfl⟩ | ⟨b, _, hi, _, _, rfl⟩ | ⟨_, _, _, rfl⟩ | ⟨hi, _, rfl⟩ |
    ⟨_, _, _, _, rfl, _, hr, hc, hlt, ⟨_, rfl⟩ | ⟨_, rfl⟩⟩ | ⟨_, rfl, _, hc, _, rfl⟩ | ⟨_, rfl⟩
  · exact .inl rfl
  · exact .inr (.inl ⟨rfl, .inr ⟨b, hi⟩⟩)
  · exact .inl rfl
  · exact .inr (.inl ⟨rfl, .inl hi⟩)
  · exact .inl rfl
  · exact .inr (.inr (absorb_absorbsWholeBlocks hr hc hlt))
  · exact .inr (.inr (finalize_absorbsWholeBlocks hc _))
  · exact .inl rfl

/-- Settles O40: a wait and an illegal word leave the lanes, and `exec_lanes` says what a command does to them. -/
theorem lanesChangeOnlyByAbsorbBlockOrClearing : Obligations.LanesChangeOnlyByAbsorbBlockOrClearing := by
  intro s t h
  rcases step_next_cases h with rfl | ⟨_, _, rfl⟩ | ⟨i, rest, hdec, hexec⟩
  · exact .inl rfl
  · exact .inl rfl
  · rcases exec_lanes hexec with hA | ⟨hA, hi⟩ | ⟨d, blocks, hblocks⟩
    · exact .inl hA
    · exact .inr (.inl ⟨hA, i, rest, hdec, hi⟩)
    · exact .inr (.inr ⟨i, rest, d, blocks, hdec, hblocks⟩)

end Sys2Proof.Machine
end

section
/-!
PROOFS. The family of 20_memory.md: the digest as lane bytes and as port words (R54, R83), and engine instances that
share no state (R66).
-/

namespace Sys2Proof.Machine

/-! The digest (20_memory.md R54). -/

theorem DigestLength.dlen_le_stateBytes (d : DigestLength) : d.dlen ≤ 200 := by
  have := d.dlen_lt_rate
  have := d.rate_le
  omega

theorem length_digestOf (d : DigestLength) (A : Lanes) : (digestOf d A).length = d.dlen := by
  rw [digestOf, List.length_take, length_stateBytes, Nat.min_eq_left d.dlen_le_stateBytes]

/-- Byte `j` of the state sequence is byte `j mod 8` of lane `j div 8`. -/
theorem getElem?_stateBytes (A : Lanes) {j : Nat} (h : j / 8 < 25) :
    (stateBytes A)[j]? = some (laneByte A[j / 8] (j % 8)) := by
  rw [stateBytes, getElem?_flatMap_bytesLE, Vector.getElem?_toList, Vector.getElem?_eq_getElem h, Option.map_some]

theorem getElem?_digestOf {d : DigestLength} (A : Lanes) {j : Nat} (hj : j < d.dlen) (h : j / 8 < 25) :
    (digestOf d A)[j]? = some (laneByte A[j / 8] (j % 8)) := by
  rw [digestOf, List.getElem?_take_of_lt hj, getElem?_stateBytes A h]

/-- Byte `j` of a packed sequence is byte `j mod 4` of its word `j div 4` (30_encoding.md R75, R83). -/
theorem wordByte_packWords {bs : List Byte} {j : Nat} (hj : j < bs.length) :
    ((packWords bs)[j / 4]?).map (fun w => wordByte w (j % 4)) = bs[j]? :=
  calc ((packWords bs)[j / 4]?).map (fun w => wordByte w (j % 4))
    _ = (unpackWords (packWords bs))[j]? := (getElem?_unpackWords _ j).symm
    _ = ((unpackWords (packWords bs)).take bs.length)[j]? := (List.getElem?_take_of_lt hj).symm
    _ = bs[j]? := by rw [take_unpackWords_packWords]

/-- `dlen` is a multiple of 4, so the digest fills its words. -/
theorem length_packWords_digestOf (d : DigestLength) (A : Lanes) : 4 * (packWords (digestOf d A)).length = d.dlen := by
  have := d.four_dvd_dlen
  rw [length_packWords, length_digestOf]
  omega

/-- Settles O12: a data word's byte is the digest's byte, which is the lane's. -/
theorem digestWordsAreLittleEndianLaneBytes : Obligations.DigestWordsAreLittleEndianLaneBytes := by
  refine fun d A => ⟨length_digestOf d A, length_packWords_digestOf d A, fun j hj h => ?_⟩
  have hbyte := getElem?_digestOf A hj h
  exact ⟨hbyte, (wordByte_packWords (by rwa [length_digestOf])).trans hbyte⟩

/-! Instances (20_memory.md R66). -/

/-- A step of the system answers exactly when its instance's own step does, and it writes that instance alone. -/
theorem System.stepAt_eq_next {n : Nat} {k : Fin n} {S T : System n} :
    System.stepAt k S = .next T ↔ ∃ t, step S[k] = .next t ∧ S.set k t = T := by
  cases h : step S[k] with
  | next t => simp [System.stepAt, h, -Fin.getElem_fin]
  | fault r => simp [System.stepAt, h, -Fin.getElem_fin]
  | refused r => simp [System.stepAt, h, -Fin.getElem_fin]

/-- The frame of a system's update: another instance keeps its state. -/
theorem System.getElem_set_ne {n : Nat} (S : System n) {j k : Fin n} (h : j ≠ k) (t : State) :
    (S.set k t)[j] = S[j] :=
  Vector.getElem_set_ne k.isLt j.isLt (Fin.val_ne_of_ne h.symm)

/-- After another instance's update, an instance takes the step it would have taken before. -/
theorem System.stepAt_set_ne {n : Nat} {S : System n} {j k : Fin n} (h : j ≠ k) {s : State}
    (hs : step S[j] = .next s) (t : State) : System.stepAt j (S.set k t) = .next ((S.set k t).set j s) :=
  System.stepAt_eq_next.mpr ⟨s, by rw [System.getElem_set_ne S h, hs], rfl⟩

/-- Settles O41: a step writes its own instance alone, and writes to two instances commute. -/
theorem instancesDoNotInterfere : Obligations.InstancesDoNotInterfere := by
  refine fun n S j k hjk => ⟨fun T hT => ?_, fun s t hs ht => ?_⟩
  · obtain ⟨t, ht, rfl⟩ := System.stepAt_eq_next.mp hT
    exact ⟨System.getElem_set_ne S hjk t, ht.trans (congrArg _ (Vector.getElem_set_self k.isLt).symm)⟩
  · have hcomm : (S.set k t).set j s = (S.set j s).set k t :=
      Vector.set_comm t s (Fin.val_ne_of_ne hjk.symm)
    refine ⟨S.set j s, S.set k t, (S.set j s).set k t, System.stepAt_eq_next.mpr ⟨s, hs, rfl⟩,
      System.stepAt_set_ne hjk.symm ht s, System.stepAt_eq_next.mpr ⟨t, ht, rfl⟩,
      hcomm ▸ System.stepAt_set_ne hjk hs t, ?_, Vector.getElem_set_self k.isLt⟩
    exact (System.getElem_set_ne _ hjk t).trans (Vector.getElem_set_self j.isLt)

end Sys2Proof.Machine
end

section
/-!
PROOFS. The family of 30_encoding.md: the opcode map (R77) with its illegal words (R78, R79), an ABSORB's payload (R75),
and the one response of every command (R82).
-/

namespace Sys2Proof.Machine

/-! Command words by their fields. A word is put together from its fields, so a match under a mask is a statement about
each field that the mask covers (30_encoding.md R71 to R73). -/

theorem append_eq_append_iff {m n : Nat} {x x' : BitVec m} {y y' : BitVec n} :
    x ++ y = x' ++ y' ↔ x = x' ∧ y = y' := by
  refine ⟨fun h => ?_, fun ⟨hx, hy⟩ => by rw [hx, hy]⟩
  have hx := congrArg (BitVec.extractLsb' n m) h
  have hy := congrArg (BitVec.extractLsb' 0 n) h
  simp only [BitVec.extractLsb'_append_eq_left, BitVec.extractLsb'_append_eq_right] at hx hy
  exact ⟨hx, hy⟩

/-- A match under a mask is one of each field. -/
theorem and_append_eq_append_iff {m n : Nat} {x mx vx : BitVec m} {y my vy : BitVec n} :
    (x ++ y) &&& (mx ++ my) = vx ++ vy ↔ x &&& mx = vx ∧ y &&& my = vy := by
  rw [BitVec.and_append, append_eq_append_iff]

theorem high_append_opcodeOf (w : Word) : w.extractLsb' 8 24 ++ opcodeOf w = w :=
  (BitVec.extractLsb'_append_extractLsb'_eq_extractLsb' rfl).trans BitVec.extractLsb'_eq_self

/-- Format C: BITLEN, the reserved byte, OP. -/
theorem configFields_append (w : Word) : w.extractLsb' 16 16 ++ (w.extractLsb' 8 8 ++ opcodeOf w) = w := by
  have hlow : w.extractLsb' 8 8 ++ opcodeOf w = w.extractLsb' 0 16 :=
    BitVec.extractLsb'_append_extractLsb'_eq_extractLsb' rfl
  rw [hlow]
  exact (BitVec.extractLsb'_append_extractLsb'_eq_extractLsb' rfl).trans BitVec.extractLsb'_eq_self

/-- Format M: the reserved bits, KM, OP. -/
theorem setmodeFields_append (w : Word) : w.extractLsb' 9 23 ++ (w.extractLsb' 8 1 ++ opcodeOf w) = w := by
  have hlow : w.extractLsb' 8 1 ++ opcodeOf w = w.extractLsb' 0 9 :=
    BitVec.extractLsb'_append_extractLsb'_eq_extractLsb' rfl
  rw [hlow]
  exact (BitVec.extractLsb'_append_extractLsb'_eq_extractLsb' rfl).trans BitVec.extractLsb'_eq_self

theorem eq_encodePlain_iff {w : Word} {op : Byte} :
    w = encodePlain op ↔ opcodeOf w = op ∧ w.extractLsb' 8 24 = 0 :=
  calc w = encodePlain op
    _ ↔ w.extractLsb' 8 24 ++ opcodeOf w = (0 : BitVec 24) ++ op := by rw [high_append_opcodeOf, encodePlain]
    _ ↔ opcodeOf w = op ∧ w.extractLsb' 8 24 = 0 := append_eq_append_iff.trans and_comm

theorem configMatch_iff {w : Word} :
    w &&& 0x0000FFFF = 0x00000001 ↔ opcodeOf w = opConfig ∧ w.extractLsb' 8 8 = 0 :=
  calc w &&& 0x0000FFFF = 0x00000001
    _ ↔ (w.extractLsb' 16 16 ++ (w.extractLsb' 8 8 ++ opcodeOf w)) &&&
          (0#16 ++ (BitVec.allOnes 8 ++ BitVec.allOnes 8)) =
        0#16 ++ ((0 : BitVec 8) ++ opConfig) := by rw [configFields_append]; rfl
    _ ↔ w.extractLsb' 16 16 &&& 0#16 = 0#16 ∧ w.extractLsb' 8 8 &&& BitVec.allOnes 8 = 0 ∧
          opcodeOf w &&& BitVec.allOnes 8 = opConfig :=
        and_append_eq_append_iff.trans (and_congr_right' and_append_eq_append_iff)
    _ ↔ opcodeOf w = opConfig ∧ w.extractLsb' 8 8 = 0 := by
      simp only [BitVec.and_zero, BitVec.and_allOnes, true_and, and_comm]

theorem setmodeMatch_iff {w : Word} :
    w &&& 0xFFFFFEFF = 0x00000002 ↔ opcodeOf w = opSetmode ∧ w.extractLsb' 9 23 = 0 :=
  calc w &&& 0xFFFFFEFF = 0x00000002
    _ ↔ (w.extractLsb' 9 23 ++ (w.extractLsb' 8 1 ++ opcodeOf w)) &&&
          (BitVec.allOnes 23 ++ (0#1 ++ BitVec.allOnes 8)) =
        (0 : BitVec 23) ++ (0#1 ++ opSetmode) := by rw [setmodeFields_append]; rfl
    _ ↔ w.extractLsb' 9 23 &&& BitVec.allOnes 23 = 0 ∧ w.extractLsb' 8 1 &&& 0#1 = 0#1 ∧
          opcodeOf w &&& BitVec.allOnes 8 = opSetmode :=
        and_append_eq_append_iff.trans (and_congr_right' and_append_eq_append_iff)
    _ ↔ opcodeOf w = opSetmode ∧ w.extractLsb' 9 23 = 0 := by
      simp only [BitVec.and_zero, BitVec.and_allOnes, true_and, and_comm]

/-! The decoder on a single-word command, one lemma per opcode (R77, R79). -/

theorem plainWord_eq_ok {w : Word} (hres : w.extractLsb' 8 24 = 0) (i : Instr) : plainWord w i = .ok i := if_pos hres

theorem plainWord_eq_error {w : Word} (hres : w.extractLsb' 8 24 ≠ 0) (i : Instr) :
    plainWord w i = .error .reservedBits := if_neg hres

theorem decodeSingle_config {w : Word} (h : opcodeOf w = opConfig) : decodeSingle w = configWord w := if_pos h

theorem decodeSingle_setmode {w : Word} (h : opcodeOf w = opSetmode) : decodeSingle w = setmodeWord w := by
  simp [decodeSingle, h, opConfig, opSetmode]

theorem decodeSingle_init {w : Word} (h : opcodeOf w = opInit) : decodeSingle w = plainWord w .init := by
  simp [decodeSingle, h, opConfig, opSetmode, opInit]

theorem decodeSingle_finalize {w : Word} (h : opcodeOf w = opFinalize) : decodeSingle w = plainWord w .finalize := by
  simp [decodeSingle, h, opConfig, opSetmode, opInit, opFinalize]

theorem decodeSingle_status {w : Word} (h : opcodeOf w = opStatus) : decodeSingle w = plainWord w .status := by
  simp [decodeSingle, h, opConfig, opSetmode, opInit, opFinalize, opStatus]

theorem decodeSingle_unassigned {w : Word} (hconfig : opcodeOf w ≠ opConfig) (hsetmode : opcodeOf w ≠ opSetmode)
    (hinit : opcodeOf w ≠ opInit) (hfinalize : opcodeOf w ≠ opFinalize) (hstatus : opcodeOf w ≠ opStatus) :
    decodeSingle w = .error .opcode := by
  rw [decodeSingle, if_neg hconfig, if_neg hsetmode, if_neg hinit, if_neg hfinalize, if_neg hstatus]

/-- A word that meets no row's match is illegal: its opcode is unassigned, or its row's reserved bits are not 0. -/
theorem decodeSingle_of_no_match {w : Word} (hconfig : w &&& 0x0000FFFF ≠ 0x00000001)
    (hsetmode : w &&& 0xFFFFFEFF ≠ 0x00000002) (hinit : w ≠ encodePlain opInit)
    (hfinalize : w ≠ encodePlain opFinalize) (hstatus : w ≠ encodePlain opStatus) :
    ∃ why, decodeSingle w = .error why := by
  rw [Ne, configMatch_iff] at hconfig
  rw [Ne, setmodeMatch_iff] at hsetmode
  rw [Ne, eq_encodePlain_iff] at hinit hfinalize hstatus
  by_cases h1 : opcodeOf w = opConfig
  · exact ⟨_, (decodeSingle_config h1).trans (if_neg fun hres => hconfig ⟨h1, hres⟩)⟩
  by_cases h2 : opcodeOf w = opSetmode
  · exact ⟨_, (decodeSingle_setmode h2).trans (if_neg fun hres => hsetmode ⟨h2, hres⟩)⟩
  by_cases h3 : opcodeOf w = opInit
  · exact ⟨_, (decodeSingle_init h3).trans (plainWord_eq_error (fun hres => hinit ⟨h3, hres⟩) _)⟩
  by_cases h5 : opcodeOf w = opFinalize
  · exact ⟨_, (decodeSingle_finalize h5).trans (plainWord_eq_error (fun hres => hfinalize ⟨h5, hres⟩) _)⟩
  by_cases h6 : opcodeOf w = opStatus
  · exact ⟨_, (decodeSingle_status h6).trans (plainWord_eq_error (fun hres => hstatus ⟨h6, hres⟩) _)⟩
  exact ⟨_, decodeSingle_unassigned h1 h2 h3 h5 h6⟩

/-! The decoder on the words at the port: a single word, and an ABSORB with its whole frame (R70, R78). -/

theorem decode_cons_of_ok {w : Word} {i : Instr} (hop : opcodeOf w ≠ opAbsorb) (h : decodeSingle w = .ok i)
    (rest : List Word) : decode (w :: rest) = .command i rest := by
  simp only [decode, if_neg hop, h]

theorem decode_cons_of_error {w : Word} {why : IllegalReason} (hop : opcodeOf w ≠ opAbsorb)
    (h : decodeSingle w = .error why) (rest : List Word) :
    decode (w :: rest) = .illegal why (opcodeOf w) rest := by
  simp only [decode, if_neg hop, h]

theorem decode_absorbFrame {w offset length bufSize : Word} {payload : List Word} (hop : opcodeOf w = opAbsorb)
    (hres : w.extractLsb' 8 24 = 0) (hlen : payload.length = payloadWords bufSize.toNat) (rest : List Word) :
    decode (w :: offset :: length :: bufSize :: (payload ++ rest)) =
      .command (.absorb offset length (windowOf bufSize.toNat payload)) rest := by
  simp [decode, decodeAbsorb, hop, plainWord_eq_ok hres, ← hlen]

theorem decode_absorbFrame_reserved {w offset length bufSize : Word} {payload : List Word}
    (hop : opcodeOf w = opAbsorb) (hres : w.extractLsb' 8 24 ≠ 0)
    (hlen : payload.length = payloadWords bufSize.toNat) (rest : List Word) :
    decode (w :: offset :: length :: bufSize :: (payload ++ rest)) = .illegal .reservedBits opAbsorb rest := by
  simp [decode, decodeAbsorb, hop, plainWord_eq_error hres, ← hlen]

/-- Settles O15: each row's match is its opcode with its reserved bits 0, and a word that meets none is illegal. -/
theorem commandWordsFollowTheMatchAndMaskTable : Obligations.CommandWordsFollowTheMatchAndMaskTable := by
  refine ⟨fun w rest hop => ⟨fun h => ?_, fun h => ?_, fun h => ?_, fun h => ?_, fun h => ?_,
    fun hconfig hsetmode hinit hfinalize hstatus => ?_⟩,
    fun w offset length bufSize payload rest hop hlen => ⟨fun h => ?_, fun h => ?_⟩⟩
  · obtain ⟨h1, hres⟩ := configMatch_iff.mp h
    exact decode_cons_of_ok hop ((decodeSingle_config h1).trans (if_pos hres)) rest
  · obtain ⟨h2, hres⟩ := setmodeMatch_iff.mp h
    exact decode_cons_of_ok hop ((decodeSingle_setmode h2).trans (if_pos hres)) rest
  · obtain ⟨h3, hres⟩ := eq_encodePlain_iff (op := opInit).mp h
    exact decode_cons_of_ok hop ((decodeSingle_init h3).trans (plainWord_eq_ok hres _)) rest
  · obtain ⟨h5, hres⟩ := eq_encodePlain_iff (op := opFinalize).mp h
    exact decode_cons_of_ok hop ((decodeSingle_finalize h5).trans (plainWord_eq_ok hres _)) rest
  · obtain ⟨h6, hres⟩ := eq_encodePlain_iff (op := opStatus).mp h
    exact decode_cons_of_ok hop ((decodeSingle_status h6).trans (plainWord_eq_ok hres _)) rest
  · obtain ⟨why, hwhy⟩ := decodeSingle_of_no_match hconfig hsetmode hinit hfinalize hstatus
    exact ⟨why, decode_cons_of_error hop hwhy rest⟩
  · exact decode_absorbFrame hop (eq_encodePlain_iff (op := opAbsorb).mp h).2 hlen rest
  · exact ⟨_, decode_absorbFrame_reserved hop (fun hres => h (eq_encodePlain_iff (op := opAbsorb).mpr ⟨hop, hres⟩))
      hlen rest⟩

/-! The payload (R75). -/

theorem length_windowOf {bufSize : Nat} {payload : List Word} (hlen : payload.length = payloadWords bufSize) :
    (windowOf bufSize payload).length = bufSize := by
  rw [windowOf, List.length_take, length_unpackWords, hlen, payloadWords]
  omega

theorem getElem?_windowOf {bufSize j : Nat} (payload : List Word) (hj : j < bufSize) :
    (windowOf bufSize payload)[j]? = (payload[j / 4]?).map fun w => wordByte w (j % 4) := by
  rw [windowOf, List.getElem?_take_of_lt hj, getElem?_unpackWords]

/-- Payloads that agree on the bytes below BUFSIZE hold one window. -/
theorem windowOf_congr {bufSize : Nat} {payload payload' : List Word}
    (h : ∀ j < bufSize, (payload[j / 4]?).map (fun w => wordByte w (j % 4)) =
      (payload'[j / 4]?).map fun w => wordByte w (j % 4)) :
    windowOf bufSize payload = windowOf bufSize payload' := by
  apply List.ext_getElem?
  intro j
  rcases Nat.lt_or_ge j bufSize with hj | hj
  · rw [getElem?_windowOf payload hj, getElem?_windowOf payload' hj, h j hj]
  · rw [windowOf, windowOf, List.getElem?_take_eq_none hj, List.getElem?_take_eq_none hj]

/-- Settles O17: the frame decodes to `windowOf`, which reads the payload below BUFSIZE and nowhere else. -/
theorem payloadBytesAreTheWindowAndPaddingIsIgnored : Obligations.PayloadBytesAreTheWindowAndPaddingIsIgnored := by
  intro offset length bufSize payload payload' rest hlen hlen'
  have hdecode := decode_absorbFrame (w := 0x00000004) (offset := offset) (length := length) (by decide) (by decide)
    hlen rest
  have hdecode' := decode_absorbFrame (w := 0x00000004) (offset := offset) (length := length) (by decide) (by decide)
    hlen' rest
  refine ⟨⟨windowOf bufSize.toNat payload, hdecode, length_windowOf hlen, fun j => getElem?_windowOf payload⟩,
    fun hagree => ?_⟩
  rw [hdecode, hdecode', windowOf_congr hagree]

/-! Illegal command words (R78, R79; 60_exceptions.md R202). -/

theorem step_of_illegal {s : State} {why : IllegalReason} {op : Byte} {rest : List Word}
    (h : decode s.portIn = .illegal why op rest) :
    step s = .next (takeFault op .illegalCommand { s with portIn := rest }) := by
  simp only [step, h, execIllegal]

/-- The response to an illegal word is `0x300 | OP`. -/
theorem faultWord_illegalCommand (w : Word) :
    faultWord (opcodeOf w) .illegalCommand = 0x00000300 ||| (w &&& 0x000000FF) := by
  have hop : w &&& 0x000000FF = (0 : BitVec 24) ++ opcodeOf w :=
    calc w &&& 0x000000FF
      _ = (w.extractLsb' 8 24 ++ opcodeOf w) &&& ((0 : BitVec 24) ++ BitVec.allOnes 8) := by
        rw [high_append_opcodeOf]; rfl
      _ = (0 : BitVec 24) ++ opcodeOf w := and_append_eq_append_iff.mpr ⟨BitVec.and_zero, BitVec.and_allOnes⟩
  calc faultWord (opcodeOf w) .illegalCommand
    _ = (0x000003 ||| 0 : BitVec 24) ++ (0#8 ||| opcodeOf w) := by rw [BitVec.zero_or]; rfl
    _ = ((0x000003 : BitVec 24) ++ 0#8) ||| ((0 : BitVec 24) ++ opcodeOf w) := BitVec.or_append.symm
    _ = 0x00000300 ||| (w &&& 0x000000FF) := by rw [hop]; rfl

/-- Every illegal single word: an unassigned opcode, or an assigned one with a reserved bit of its format set. -/
theorem decodeSingle_of_illegal_form {w : Word}
    (h : (opcodeOf w = 0x00 ∨ 0x07 ≤ (opcodeOf w).toNat) ∨
      (opcodeOf w = opConfig ∧ w.extractLsb' 8 8 ≠ 0) ∨
      (opcodeOf w = opSetmode ∧ w.extractLsb' 9 23 ≠ 0) ∨
      ((opcodeOf w = opInit ∨ opcodeOf w = opFinalize ∨ opcodeOf w = opStatus) ∧ w.extractLsb' 8 24 ≠ 0)) :
    opcodeOf w ≠ opAbsorb ∧ ∃ why, decodeSingle w = .error why := by
  have hne {op : Byte} (h : opcodeOf w = 0x00 ∨ 0x07 ≤ (opcodeOf w).toNat) (h0 : op ≠ 0x00) (h7 : op.toNat < 0x07) :
      opcodeOf w ≠ op := by
    rintro rfl
    rcases h with h | h
    · exact h0 h
    · omega
  have hother {op : Byte} (h : opcodeOf w = op) (hop : op ≠ opAbsorb) : opcodeOf w ≠ opAbsorb := h ▸ hop
  rcases h with hop | ⟨hop, hres⟩ | ⟨hop, hres⟩ | ⟨hop | hop | hop, hres⟩
  · have hun {op : Byte} := hne (op := op) hop
    exact ⟨hun (by decide) (by decide), _, decodeSingle_unassigned (hun (by decide) (by decide))
      (hun (by decide) (by decide)) (hun (by decide) (by decide)) (hun (by decide) (by decide))
      (hun (by decide) (by decide))⟩
  · exact ⟨hother hop (by decide), _, (decodeSingle_config hop).trans (if_neg hres)⟩
  · exact ⟨hother hop (by decide), _, (decodeSingle_setmode hop).trans (if_neg hres)⟩
  · exact ⟨hother hop (by decide), _, (decodeSingle_init hop).trans (plainWord_eq_error hres _)⟩
  · exact ⟨hother hop (by decide), _, (decodeSingle_finalize hop).trans (plainWord_eq_error hres _)⟩
  · exact ⟨hother hop (by decide), _, (decodeSingle_status hop).trans (plainWord_eq_error hres _)⟩

/-- Settles O20: each illegal form decodes as illegal with its frame consumed, and the step takes ILLEGAL_COMMAND. -/
theorem illegalCommandWordsFault : Obligations.IllegalCommandWordsFault := by
  refine ⟨fun s w rest hin hform => ?_,
    fun s w offset length bufSize payload rest hin hlen hop hres => ?_⟩
  · obtain ⟨hop, why, hwhy⟩ := decodeSingle_of_illegal_form hform
    have hdecode : decode s.portIn = .illegal why (opcodeOf w) rest := hin ▸ decode_cons_of_error hop hwhy rest
    rw [step_of_illegal hdecode, takeFault, faultWord_illegalCommand]
  · have hdecode : decode s.portIn = .illegal .reservedBits opAbsorb rest :=
      hin ▸ decode_absorbFrame_reserved hop hres hlen rest
    rw [step_of_illegal hdecode]
    rfl

/-! Responses (R82): the fields of response word 0, from bit 0 up. -/

@[simp] theorem responseWord_opField (fcode : BitVec 3) (f : Bool) (op : Byte) :
    (responseWord fcode f op).extractLsb' 0 8 = op :=
  BitVec.extractLsb'_append_eq_right

theorem responseWord_fBit (fcode : BitVec 3) (f : Bool) (op : Byte) :
    (responseWord fcode f op).getLsbD 8 = f := by
  simp only [responseWord, BitVec.getLsbD_append]
  simp

@[simp] theorem responseWord_fcodeField (fcode : BitVec 3) (f : Bool) (op : Byte) :
    (responseWord fcode f op).extractLsb' 9 3 = fcode := by
  simp (disch := decide) only [responseWord, BitVec.extractLsb'_append_eq_of_add_le,
    BitVec.extractLsb'_append_eq_of_le, Nat.reduceSub, BitVec.extractLsb'_eq_self]

@[simp] theorem responseWord_reservedField (fcode : BitVec 3) (f : Bool) (op : Byte) :
    (responseWord fcode f op).extractLsb' 12 20 = 0 := by
  simp (disch := decide) only [responseWord, BitVec.extractLsb'_append_eq_of_le, Nat.reduceSub,
    BitVec.extractLsb'_eq_self]

/-- How many data words follow a success's word 0 (R82, R83): the digest's for FINALIZE, one for STATUS. -/
def dataWords (i : Instr) (s : State) : Nat :=
  match i with
  | .finalize => dlenOrZero s.cfg / 4
  | .status => 1
  | .config _ | .setmode _ | .init | .absorb _ _ _ => 0

/-- A command that answers took a fault, or it sent a success response with its data words and left `lastFault`. -/
theorem exec_response {i : Instr} {s t : State} (h : exec i s = .next t) :
    (∃ c, c ≠ .noFault ∧ t = takeFault i.opcode c s) ∨
      ∃ data, t.portOut = s.portOut ++ okWord i.opcode :: data ∧ t.lastFault = s.lastFault ∧
        data.length = dataWords i s := by
  rcases exec_cases h with hfault | ⟨_, _, rfl, _, _, rfl⟩ | ⟨_, rfl, _, rfl⟩ | ⟨rfl, _, rfl⟩ |
    ⟨_, _, _, _, rfl, _, _, _, _, ⟨_, rfl⟩ | ⟨_, rfl⟩⟩ | ⟨d, rfl, _, hc, _, rfl⟩ | ⟨rfl, rfl⟩
  · exact .inl hfault
  · exact .inr ⟨[], rfl, rfl, rfl⟩
  · exact .inr ⟨[], rfl, rfl, rfl⟩
  · exact .inr ⟨[], rfl, rfl, rfl⟩
  · exact .inr ⟨[], rfl, rfl, rfl⟩
  · exact .inr ⟨[], by simp [Instr.opcode], by simp, rfl⟩
  · refine .inr ⟨packWords (digestOf d (finalizeSponge d s).A), rfl, rfl, ?_⟩
    have hlen := length_packWords_digestOf d (finalizeSponge d s).A
    simp only [dataWords, hc, dlenOrZero]
    omega
  · exact .inr ⟨[statusWord s], rfl, rfl, rfl⟩

/-- Settles O30: `takeFault` answers one word and writes `lastFault` alone, and `exec_response` says what a success
sends. -/
theorem everyCommandGetsOneResponse : Obligations.EveryCommandGetsOneResponse := by
  refine ⟨fun s why op rest hdecode => ⟨faultWord op .illegalCommand, step_of_illegal hdecode, ?_⟩,
    fun i s t h => ?_⟩
  · simp only [faultWord, responseWord_opField, responseWord_fBit, responseWord_fcodeField,
      responseWord_reservedField, FaultCode.code, and_self]
  · rcases exec_response h with ⟨c, hc, rfl⟩ | ⟨data, hout, hlast, hdata⟩
    · refine ⟨faultWord i.opcode c, [], rfl, responseWord_opField .., responseWord_reservedField ..,
        fun _ => ⟨rfl, responseWord_fcodeField .., hc, rfl⟩, fun hf => ?_⟩
      cases hf.symm.trans (responseWord_fBit ..)
    · refine ⟨okWord i.opcode, data, hout, responseWord_opField .., responseWord_reservedField .., fun hf => ?_,
        fun _ => ⟨responseWord_fcodeField .., hlast, hdata.trans ?_⟩⟩
      · cases hf.symm.trans (responseWord_fBit ..)
      cases i with
      | finalize => cases hcfg : s.cfg <;> simp only [dataWords, hcfg] <;> rfl
      | _ => rfl

end Sys2Proof.Machine
end

section
/-!
PROOFS. The family of 40_permutation.md: each step mapping on a lane and on a bit (R104 to R109), the 24 rounds (R110,
R111), that every step is a bijection (R112), and the absorb-combine primitive (R113).
-/

namespace Sys2Proof.Machine

/-! The rotation (00_scope.md R10). -/

/-- Bit `j` of a rotated lane is bit `j - n` mod 64 of the lane (63 is -1 mod 64). -/
theorem getLsbD_rotl64_source (v : Lane) (n : Nat) {j : Nat} (hj : j < 64) :
    (rotl64 v n).getLsbD j = v.getLsbD ((j + 63 * n) % 64) := by
  have hsource : ((j + 63 * n) % 64 + n) % 64 = j := by omega
  rw [← getLsbD_rotl64 v n _ (Nat.mod_lt (j + 63 * n) (by decide)), hsource]

/-- Rotation by 0 is the identity. -/
theorem rotl64_by_zero (v : Lane) : rotl64 v 0 = v := by
  refine BitVec.eq_of_getLsbD_eq fun j hj => ?_
  rw [getLsbD_rotl64_source v 0 hj, Nat.mul_zero, Nat.add_zero, Nat.mod_eq_of_lt hj]

/-- Rotation by the lane's width is the identity. -/
theorem rotl64_by_width (v : Lane) : rotl64 v 64 = v := by
  refine BitVec.eq_of_getLsbD_eq fun j hj => ?_
  rw [getLsbD_rotl64_source v 64 hj, Nat.add_mul_mod_self_right, Nat.mod_eq_of_lt hj]

@[simp] theorem rotl64_zero (n : Nat) : rotl64 0#64 n = 0#64 := by
  refine BitVec.eq_of_getLsbD_eq fun j hj => ?_
  rw [getLsbD_rotl64_source 0#64 n hj, BitVec.getLsbD_zero, BitVec.getLsbD_zero]

theorem rotl64_xor (v w : Lane) (n : Nat) : rotl64 (v ^^^ w) n = rotl64 v n ^^^ rotl64 w n := by
  refine BitVec.eq_of_getLsbD_eq fun j hj => ?_
  simp only [BitVec.getLsbD_xor, getLsbD_rotl64_source _ n hj]

theorem rotl64_rotl64 (v : Lane) (m n : Nat) : rotl64 (rotl64 v m) n = rotl64 v (m + n) := by
  refine BitVec.eq_of_getLsbD_eq fun j hj => ?_
  have hsource : ((j + 63 * n) % 64 + 63 * m) % 64 = (j + 63 * (m + n)) % 64 := by omega
  rw [getLsbD_rotl64_source _ n hj, getLsbD_rotl64_source v m (Nat.mod_lt _ (by decide)),
    getLsbD_rotl64_source v (m + n) hj, hsource]

theorem rotl64_injective (n : Nat) : Function.Injective fun v => rotl64 v n := by
  intro v w (h : rotl64 v n = rotl64 w n)
  refine BitVec.eq_of_getLsbD_eq fun k hk => ?_
  rw [← getLsbD_rotl64 v n k hk, h, getLsbD_rotl64 w n k hk]

/-! The steps on the zero state (R104, R109). -/

@[simp] theorem lane_zeroLanes (x y : Nat) : lane zeroLanes x y = 0 := by
  simp [lane, zeroLanes]

/-- A state all of whose lanes are 0 is the zero state. -/
theorem eq_zeroLanes {A : Lanes} (h : ∀ x y, lane A x y = 0) : A = zeroLanes :=
  lanes_ext fun x _ y _ => (h x y).trans (lane_zeroLanes x y).symm

@[simp] theorem thetaStep_zeroLanes : thetaStep zeroLanes = zeroLanes :=
  eq_zeroLanes fun x y => by simp [lane_thetaStep, parityOf]

@[simp] theorem rhoStep_zeroLanes : rhoStep zeroLanes = zeroLanes :=
  eq_zeroLanes fun x y => by simp [lane_rhoStep]

@[simp] theorem piStep_zeroLanes : piStep zeroLanes = zeroLanes :=
  eq_zeroLanes fun x y => by simp [lane_piStep]

@[simp] theorem chiStep_zeroLanes : chiStep zeroLanes = zeroLanes :=
  eq_zeroLanes fun x y => by simp [lane_chiStep]

@[simp] theorem iotaStep_zeroLanes (ir : Fin 24) : iotaStep zeroLanes ir = zeroLanes.set 0 roundConstants[ir] := by
  have hzero : zeroLanes[0] = 0 := lane_zeroLanes 0 0
  rw [iotaStep, hzero, zero_xor]

theorem keccakRound_zeroLanes (ir : Fin 24) : keccakRound zeroLanes ir = zeroLanes.set 0 roundConstants[ir] := by
  simp only [keccakRound, thetaStep_zeroLanes, rhoStep_zeroLanes, piStep_zeroLanes, chiStep_zeroLanes,
    iotaStep_zeroLanes]

/-! The step mappings one by one. -/

/-- Settles O2: `lane_thetaStep`, with the column parities written out. -/
theorem thetaXorsNeighbourColumnParities : Obligations.ThetaXorsNeighbourColumnParities :=
  ⟨fun A x y => lane_thetaStep A x y, thetaStep_zeroLanes, fun v => getLsbD_rotl64 v 1 63 (by decide)⟩

/-- One move of the walk that generates the rotation offsets (R102). -/
def offsetWalkNext (p : Nat × Nat) : Nat × Nat := (p.2, (2 * p.1 + 3 * p.2) % 5)

theorem walk_eq_iterate {walk : Nat → Nat × Nat} (h0 : walk 0 = (1, 0))
    (hnext : ∀ n, walk (n + 1) = offsetWalkNext (walk n)) (t : Nat) : walk t = offsetWalkNext^[t] (1, 0) := by
  induction t with
  | zero => exact h0
  | succ t ih => rw [hnext, ih, Function.iterate_succ_apply']

theorem rotationOffsets_along_walk : ∀ t < 24,
    rotationOffsets[(offsetWalkNext^[t] (1, 0)).1 + 5 * (offsetWalkNext^[t] (1, 0)).2]? =
      some ((t + 1) * (t + 2) / 2 % 64) := by
  decide

/-- Settles O4: each lane is rotated by its offset, and the table is the walk's. -/
theorem rhoMovesEachBitByItsLanesOffset : Obligations.RhoMovesEachBitByItsLanesOffset := by
  refine ⟨fun A i k hk => ?_, fun A => ?_, fun walk h0 hnext t ht => ?_⟩
  · simp only [Fin.getElem_fin]
    rw [getElem_rhoStep]
    exact getLsbD_rotl64 _ _ k hk
  · rw [getElem_rhoStep]
    exact rotl64_by_zero _
  · rw [walk_eq_iterate h0 hnext t]
    exact rotationOffsets_along_walk t ht

/-- The lane at old position `(x, y)` is at new position `(y, 2x + 3y)` (R106). -/
theorem lane_piStep_destination (A : Lanes) (x y : Nat) : lane (piStep A) y (2 * x + 3 * y) = lane A x y := by
  rw [lane_piStep]
  exact lane_congr A (by omega) rfl

/-- Settles O5: pi's source form and its destination form. -/
theorem piMovesLanesToTheStandardPositions : Obligations.PiMovesLanesToTheStandardPositions :=
  fun A x y => ⟨lane_piStep A x y, lane_piStep_destination A x y⟩

/-- chi on one bit (R107). -/
theorem getLsbD_chiStep (A : Lanes) (x y : Nat) {k : Nat} (hk : k < 64) :
    (lane (chiStep A) x y).getLsbD k =
      ((lane A x y).getLsbD k ^^ (!(lane A (x + 1) y).getLsbD k && (lane A (x + 2) y).getLsbD k)) := by
  simp only [lane_chiStep, BitVec.getLsbD_xor, BitVec.getLsbD_and, BitVec.getLsbD_not, hk, decide_true,
    Bool.true_and]

/-- Settles O6: chi bit by bit, and its five lanes on the row (0, 0, 0, 1, 0). -/
theorem chiUpdatesRowsSimultaneously : Obligations.ChiUpdatesRowsSimultaneously := by
  refine ⟨fun A x y k hk => getLsbD_chiStep A x y hk, fun A y h0 h1 h2 h3 h4 => ?_⟩
  have h5 : lane A 5 y = 0 := (lane_congr A rfl rfl).trans h0
  have h6 : lane A 6 y = 0 := (lane_congr A rfl rfl).trans h1
  simp only [lane_chiStep, Nat.reduceAdd, h0, h1, h2, h3, h4, h5, h6]
  decide

/-- Settles O7: iota writes lane 0 alone. -/
theorem iotaChangesLaneZeroAlone : Obligations.IotaChangesLaneZeroAlone := by
  refine fun A ir => ⟨getElem_iotaStep A ir 0 (by decide), fun i hi => ?_⟩
  exact (getElem_iotaStep A ir i i.isLt).trans (if_neg (Fin.val_ne_of_ne hi))

/-! The round (R109). -/

/-- iota in the coordinates of the other steps: lane `(0, 0)` takes the round's constant. -/
theorem lane_iotaStep (A : Lanes) (ir : Fin 24) (x y : Nat) :
    lane (iotaStep A ir) x y = lane A x y ^^^ (if x % 5 = 0 ∧ y % 5 = 0 then roundConstants[ir] else 0) := by
  rw [lane, getElem_iotaStep]
  by_cases h : x % 5 = 0 ∧ y % 5 = 0
  · obtain ⟨hx, hy⟩ := h
    simp [lane, hx, hy]
  · rw [if_neg (by omega), if_neg h, xor_zero, lane]

/-- What theta, rho and pi put at `(u, v)`. -/
theorem lane_piStep_rhoStep_thetaStep (A : Lanes) (u v : Nat) :
    lane (piStep (rhoStep (thetaStep A))) u v =
      rotl64 (lane A (u + 3 * v) u ^^^ (parityOf A (u + 3 * v + 4) ^^^ rotl64 (parityOf A (u + 3 * v + 1)) 1))
        (rotationOffsets.toList.getD ((u + 3 * v) % 5 + 5 * (u % 5)) 0) := by
  have hoffset : rotationOffsets.toList.getD ((u + 3 * v) % 5 + 5 * (u % 5)) 0 =
      rotationOffsets[(u + 3 * v) % 5 + 5 * (u % 5)] := by
    rw [List.getD_eq_getElem _ _ (by rw [Vector.length_toList]; omega), Vector.getElem_toList]
  rw [lane_piStep, lane_rhoStep, lane_thetaStep, hoffset]

/-- Settles O8: the lane lemmas of the five steps, one inside the other. -/
theorem roundIsThetaRhoPiChiIota : Obligations.RoundIsThetaRhoPiChiIota := by
  refine ⟨fun A ir x y => ?_, keccakRound_zeroLanes⟩
  have hxy : (x.val % 5 = 0 ∧ y.val % 5 = 0) = (x = 0 ∧ y = 0) := by
    simp only [Nat.mod_eq_of_lt x.isLt, Nat.mod_eq_of_lt y.isLt, Fin.ext_iff, Fin.val_zero]
  simp only [keccakRound, lane_iotaStep, lane_chiStep, lane_piStep_rhoStep_thetaStep, hxy]
  rfl

/-! KeccakF (R110, R111). -/

/-- A fold over the indices `0 .. n-1` ends where any sequence of its steps ends. -/
theorem foldl_finRange_eq_of_steps {α : Type} {n : Nat} {f : α → Fin n → α} {state : Nat → α}
    (hstep : ∀ i : Fin n, state (i + 1) = f (state i) i) : (List.finRange n).foldl f (state 0) = state n := by
  induction n with
  | zero => rfl
  | succ n ih =>
    rw [List.finRange_succ_last, List.foldl_append, List.foldl_map,
      ih (f := fun a i => f a i.castSucc) fun i => hstep i.castSucc]
    exact (hstep (Fin.last n)).symm

/-- Settles O9: `foldl_finRange_eq_of_steps` at the 24 rounds. -/
theorem keccakFIsAnySequenceOf24Rounds : Obligations.KeccakFIsAnySequenceOf24Rounds := by
  rintro _ state rfl hround
  unfold keccakF
  exact foldl_finRange_eq_of_steps hround

/-! The bijections (R112). There are finitely many states, so a step that is injective is a bijection. -/

theorem finite_lanes : Finite Lanes :=
  Finite.of_injective (fun (A : Lanes) (i : Fin 25) => A[i])
    fun _ _ h => Vector.ext fun i hi => congrFun h ⟨i, hi⟩

theorem bijective_of_injective {f : Lanes → Lanes} (h : Function.Injective f) : Function.Bijective f :=
  have := finite_lanes
  h.bijective_of_finite

theorem lane_xor_left_comm (u v w : Lane) : u ^^^ (v ^^^ w) = v ^^^ (u ^^^ w) := by
  rw [← BitVec.xor_assoc, BitVec.xor_comm u v, BitVec.xor_assoc]

/-- theta on the column parities is `columnMix 1` (`parityOf_thetaStep`). As a polynomial in the column shift `X` and
the rotation `Z`, `columnMix n` is `1 + X^(4n) + X^n Z^n`; squaring doubles `n`, and `Z^64 = 1`. -/
def columnMix (n : Nat) (C : Nat → Lane) (x : Nat) : Lane := C x ^^^ (C (x + 4 * n) ^^^ rotl64 (C (x + n)) n)

theorem columnMix_columnMix (n : Nat) (C : Nat → Lane) : columnMix n (columnMix n C) = columnMix (2 * n) C := by
  funext x
  have h5 : x + n + 4 * n = x + 4 * n + n := by omega
  have h8 : x + 4 * n + 4 * n = x + 4 * (2 * n) := by omega
  have h2 : x + n + n = x + 2 * n := by omega
  have hn : n + n = 2 * n := by omega
  simp only [columnMix, rotl64_xor, rotl64_rotl64, h5, h8, h2, hn]
  simp [BitVec.xor_assoc, BitVec.xor_comm, lane_xor_left_comm]

/-- If the mixed columns agree, they agree after any number of squarings. -/
theorem columnMix_two_pow_congr {C C' : Nat → Lane} (h : columnMix 1 C = columnMix 1 C') (k : Nat) :
    columnMix (2 ^ k) C = columnMix (2 ^ k) C' := by
  induction k with
  | zero => exact h
  | succ k ih => rw [Nat.pow_succ', ← columnMix_columnMix, ih, columnMix_columnMix]

/-- Five copies of one mask leave a single one. -/
theorem xor_mask_five (a b c d e m : Lane) :
    (a ^^^ m) ^^^ (b ^^^ m) ^^^ (c ^^^ m) ^^^ (d ^^^ m) ^^^ (e ^^^ m) = (a ^^^ b ^^^ c ^^^ d ^^^ e) ^^^ m := by
  simp [BitVec.xor_assoc, BitVec.xor_comm, lane_xor_left_comm]

theorem parityOf_thetaStep (A : Lanes) : parityOf (thetaStep A) = columnMix 1 (parityOf A) := by
  funext x
  rw [parityOf]
  simp only [lane_thetaStep]
  exact xor_mask_five ..

/-- After six squarings the rotation is gone, and on columns counted mod 5 `1 + X + X^4` has the inverse
`1 + X^2 + X^3`. -/
theorem parityOf_eq_columnMix (A : Lanes) (x : Nat) :
    parityOf A x = columnMix 64 (parityOf A) x ^^^ columnMix 64 (parityOf A) (x + 2) ^^^
      columnMix 64 (parityOf A) (x + 3) := by
  have hmix : ∀ u, columnMix 64 (parityOf A) u = parityOf A u ^^^ (parityOf A (u + 1) ^^^ parityOf A (u + 4)) := by
    intro u
    rw [columnMix, rotl64_by_width, parityOf_congr A (show (u + 4 * 64) % 5 = (u + 1) % 5 by omega),
      parityOf_congr A (show (u + 64) % 5 = (u + 4) % 5 by omega)]
  simp only [hmix, Nat.add_assoc, Nat.reduceAdd]
  rw [parityOf_congr A (show (x + 6) % 5 = (x + 1) % 5 by omega),
    parityOf_congr A (show (x + 7) % 5 = (x + 2) % 5 by omega)]
  simp [BitVec.xor_assoc, BitVec.xor_comm, lane_xor_left_comm]

/-- theta's result fixes the input's column parities, and with them the mask that was XORed in. -/
theorem thetaStep_injective : Function.Injective thetaStep := by
  intro A B h
  have hmix : columnMix 1 (parityOf A) = columnMix 1 (parityOf B) := by
    rw [← parityOf_thetaStep, h, parityOf_thetaStep]
  have hmix64 : columnMix 64 (parityOf A) = columnMix 64 (parityOf B) := columnMix_two_pow_congr hmix 6
  have hparity : ∀ x, parityOf A x = parityOf B x := by
    intro x
    rw [parityOf_eq_columnMix, hmix64, ← parityOf_eq_columnMix]
  refine lanes_ext fun x _ y _ => ?_
  have hlane := congrArg (lane · x y) h
  simp only [lane_thetaStep, hparity] at hlane
  exact (BitVec.xor_left_inj _).mp hlane

theorem rhoStep_injective : Function.Injective rhoStep := by
  intro A B h
  refine lanes_ext fun x _ y _ => ?_
  have hlane := congrArg (lane · x y) h
  simp only [lane_rhoStep] at hlane
  exact rotl64_injective _ hlane

theorem piStep_injective : Function.Injective piStep := by
  intro A B h
  refine lanes_ext fun x _ y _ => ?_
  rw [← lane_piStep_destination, h, lane_piStep_destination]

/-- chi's row map on five bits is undone by reading the result's row in the same way, two levels deeper. -/
theorem chi_row_inverse : ∀ a b c d e : Bool,
    a = ((a ^^ (!b && c)) ^^ (!(b ^^ (!c && d)) && ((c ^^ (!d && e)) ^^ (!(d ^^ (!e && a)) && (e ^^ (!a && b)))))) := by
  decide

/-- chi's input, bit by bit, from its result. -/
theorem getLsbD_eq_chiStep (A : Lanes) (x y : Nat) {k : Nat} (hk : k < 64) :
    (lane A x y).getLsbD k =
      ((lane (chiStep A) x y).getLsbD k ^^ (!(lane (chiStep A) (x + 1) y).getLsbD k &&
        ((lane (chiStep A) (x + 2) y).getLsbD k ^^ (!(lane (chiStep A) (x + 3) y).getLsbD k &&
          (lane (chiStep A) (x + 4) y).getLsbD k)))) := by
  simp only [getLsbD_chiStep A _ y hk, Nat.add_assoc, Nat.reduceAdd]
  rw [lane_congr A (show (x + 5) % 5 = x % 5 by omega) (rfl : y % 5 = y % 5),
    lane_congr A (show (x + 6) % 5 = (x + 1) % 5 by omega) (rfl : y % 5 = y % 5)]
  exact chi_row_inverse ..

theorem chiStep_injective : Function.Injective chiStep := by
  intro A B h
  refine lanes_ext fun x _ y _ => BitVec.eq_of_getLsbD_eq fun k hk => ?_
  rw [getLsbD_eq_chiStep A x y hk, h, ← getLsbD_eq_chiStep B x y hk]

theorem iotaStep_injective (ir : Fin 24) : Function.Injective fun A => iotaStep A ir := by
  intro A B (h : iotaStep A ir = iotaStep B ir)
  refine lanes_ext fun x _ y _ => ?_
  have hlane := congrArg (lane · x y) h
  simp only [lane_iotaStep] at hlane
  exact (BitVec.xor_left_inj _).mp hlane

theorem keccakRound_injective (ir : Fin 24) : Function.Injective fun A => keccakRound A ir :=
  (iotaStep_injective ir).comp <| chiStep_injective.comp <| piStep_injective.comp <|
    rhoStep_injective.comp thetaStep_injective

theorem foldl_injective {α ι : Type} {f : α → ι → α} (h : ∀ i, Function.Injective fun a => f a i) (l : List ι) :
    Function.Injective fun a => l.foldl f a := by
  induction l with
  | nil => exact Function.injective_id
  | cons i l ih => exact ih.comp (h i)

theorem keccakF_injective : Function.Injective keccakF := by
  unfold keccakF
  exact foldl_injective keccakRound_injective _

/-- Settles O10: every step is injective on finitely many states. -/
theorem keccakFAndItsStepsAreBijections : Obligations.KeccakFAndItsStepsAreBijections :=
  ⟨bijective_of_injective thetaStep_injective, bijective_of_injective rhoStep_injective,
    bijective_of_injective piStep_injective, bijective_of_injective chiStep_injective,
    fun ir => bijective_of_injective (iotaStep_injective ir),
    fun ir => bijective_of_injective (keccakRound_injective ir), bijective_of_injective keccakF_injective⟩

/-! AbsorbBlock (R113). -/

theorem laneByte_blockLane (B : List Byte) (i : Nat) {k : Nat} (hk : k < 8) :
    laneByte (blockLane B i) k = B.getD (8 * i + k) 0 := by
  have hbytes := bytesLE_le64 (B.getD (8 * i) 0) (B.getD (8 * i + 1) 0) (B.getD (8 * i + 2) 0) (B.getD (8 * i + 3) 0)
    (B.getD (8 * i + 4) 0) (B.getD (8 * i + 5) 0) (B.getD (8 * i + 6) 0) (B.getD (8 * i + 7) 0)
  rw [← blockLane] at hbytes
  simp only [bytesLE, List.cons.injEq, and_true] at hbytes
  obtain ⟨h0, h1, h2, h3, h4, h5, h6, h7⟩ := hbytes
  interval_cases k <;> assumption

/-- Settles O11: the state that is permuted is `xorBlock A B laneCount`. -/
theorem absorbBlockXorsLittleEndianLanesThenPermutes :
    Obligations.AbsorbBlockXorsLittleEndianLanesThenPermutes := by
  refine fun A B laneCount _ hlen => ⟨xorBlock A B laneCount, rfl, fun i k hk => ⟨fun b hb => ?_, fun hi => ?_⟩⟩
  · have hlt : 8 * i.val + k < B.length := (List.getElem?_eq_some_iff.mp hb).1
    have hi : i.val < laneCount := by omega
    simp only [Fin.getElem_fin]
    rw [getElem_xorBlock, if_pos hi, laneByte_xor, laneByte_blockLane B i hk, List.getD_eq_getElem?_getD, hb,
      Option.getD_some]
  · exact (getElem_xorBlock A B laneCount i i.isLt).trans (if_neg (Nat.not_lt.mpr hi))

end Sys2Proof.Machine
end

section
/-!
PROOFS. The family of 41_sponge_commands.md: what each command answers, with its whole next state (R141 to R146), and
the words it decodes from.
-/

namespace Sys2Proof.Machine

/-! CONFIG (R141; 60_exceptions.md R205). -/

/-- The fields of a word of format C: OP, the reserved byte and BITLEN. -/
theorem configFields_of_append (b : BitVec 16) :
    opcodeOf (b ++ (0x0001 : BitVec 16)) = opConfig ∧
      (b ++ (0x0001 : BitVec 16)).extractLsb' 8 8 = 0 ∧ (b ++ (0x0001 : BitVec 16)).extractLsb' 16 16 = b :=
  ⟨BitVec.extractLsb'_append_eq_of_add_le (by decide), BitVec.extractLsb'_append_eq_of_add_le (by decide),
    BitVec.extractLsb'_append_eq_left⟩

theorem decode_configWord (b : BitVec 16) (rest : List Word) :
    decode ((b ++ (0x0001 : BitVec 16)) :: rest) = .command (.config b) rest := by
  obtain ⟨hop, hres, hbitlen⟩ := configFields_of_append b
  refine decode_cons_of_ok (by rw [hop]; decide) ?_ rest
  rw [decodeSingle_config hop, configWord, if_pos hres, hbitlen]

/-- The four lengths are the `bits` of the configurations (10_state.md R23). -/
theorem mem_digestBits_iff {n : Nat} : n ∈ [224, 256, 384, 512] ↔ ∃ d : DigestLength, n = d.bits := by
  refine ⟨fun h => ?_, ?_⟩
  · simp only [List.mem_cons, List.not_mem_nil, or_false] at h
    rcases h with h | h | h | h
    · exact ⟨.bits224, h⟩
    · exact ⟨.bits256, h⟩
    · exact ⟨.bits384, h⟩
    · exact ⟨.bits512, h⟩
  · rintro ⟨d, rfl⟩
    cases d <;> decide

theorem exec_config_of_unconfigured {b : BitVec 16} {s : State} {d : DigestLength} (hf : s.fsm = .unconfigured)
    (hb : b.toNat = d.bits) :
    exec (.config b) s = .next (respondOk opConfig [] { clearSession s with cfg := some d }) := by
  simp [exec, execConfig, hf, digestLengthOf_eq_some.mpr hb]

theorem exec_config_of_badLength {b : BitVec 16} {s : State} (hf : s.fsm = .unconfigured)
    (hb : b.toNat ∉ [224, 256, 384, 512]) :
    exec (.config b) s = .next (takeFault opConfig .badDigestLength s) := by
  rw [mem_digestBits_iff, not_exists] at hb
  simp [exec, execConfig, hf, digestLengthOf_eq_none.mpr hb]

theorem exec_config_of_configured {b : BitVec 16} {s : State} (hf : s.fsm ≠ .unconfigured) :
    exec (.config b) s = .next (takeFault opConfig .sequence s) :=
  if_pos hf

/-- Settles O22: one equation of `exec` for each session state and kind of BITLEN. -/
theorem configConstructsOrFaults : Obligations.ConfigConstructsOrFaults := by
  refine ⟨decode_configWord, fun b s d hf hb => ⟨exec_config_of_unconfigured hf hb, ?_, ?_⟩,
    fun b s => exec_config_of_badLength, fun b s => exec_config_of_configured, fun b => mem_digestBits_iff.mp⟩
  · rw [hb, DigestLength.rate]
  · rw [hb, DigestLength.dlen]

/-! SETMODE (R142). -/

theorem exec_setmode_of_unconfigured {km : Bool} {s : State} (hf : s.fsm = .unconfigured) :
    exec (.setmode km) s = .next (takeFault opSetmode .notConfigured s) := by
  simp only [exec, execSetmode, hf]

theorem exec_setmode_of_absorbing {km : Bool} {s : State} (hf : s.fsm = .absorbing) :
    exec (.setmode km) s = .next (takeFault opSetmode .sequence s) := by
  simp only [exec, execSetmode, hf]

theorem exec_setmode_of_ready_or_finalized {km : Bool} {s : State} (hf : s.fsm = .ready ∨ s.fsm = .finalized) :
    exec (.setmode km) s = .next (respondOk opSetmode [] { s with K := km }) := by
  rcases hf with hf | hf <;> simp only [exec, execSetmode, hf]

/-- Settles O23: SETMODE's two words, and one equation of `exec` for each session state. -/
theorem setmodeWritesThePaddingModeOrFaults : Obligations.SetmodeWritesThePaddingModeOrFaults := by
  refine ⟨fun km rest => ?_, fun km s => exec_setmode_of_ready_or_finalized,
    fun km s => exec_setmode_of_unconfigured, fun km s => exec_setmode_of_absorbing⟩
  cases km <;> rfl

/-! INIT (R143). -/

/-- Settles O24: INIT's word, and the two cases of `execInit_cases`. -/
theorem initClearsTheSessionOrFaults : Obligations.InitClearsTheSessionOrFaults := by
  refine ⟨fun rest => rfl, fun s hf => ?_, fun s hf => ?_⟩
  · rcases execInit_cases s with ⟨hun, _⟩ | ⟨_, hexec⟩
    · exact absurd hun hf
    · exact hexec
  · rcases execInit_cases s with ⟨_, hexec⟩ | ⟨hconf, _⟩
    · exact hexec
    · exact absurd hf hconf

/-! ABSORB (R144; 60_exceptions.md R206, R207). -/

theorem exec_absorb_of_unconfigured {offset length : BitVec 32} {window : List Byte} {s : State}
    (hf : s.fsm = .unconfigured) :
    exec (.absorb offset length window) s = .next (takeFault opAbsorb .notConfigured s) := by
  simp only [exec, execAbsorb, hf]

theorem exec_absorb_of_finalized {offset length : BitVec 32} {window : List Byte} {s : State}
    (hf : s.fsm = .finalized) :
    exec (.absorb offset length window) s = .next (takeFault opAbsorb .sequence s) := by
  simp only [exec, execAbsorb, hf]

theorem exec_absorb_of_badRange {offset length : BitVec 32} {window : List Byte} {s : State}
    (hf : s.fsm = .ready ∨ s.fsm = .absorbing) (hr : rangeOk offset length window.length = false) :
    exec (.absorb offset length window) s = .next (takeFault opAbsorb .badRange s) := by
  rcases hf with hf | hf <;> simp [exec, execAbsorb, hf, hr]

/-- ABSORB in range, in a configured session that is not finalized: what `fill` and LENGTH decide. -/
theorem exec_absorb_of_inRange {offset length : BitVec 32} {window : List Byte} {s : State} {d : DigestLength}
    (hf : s.fsm = .ready ∨ s.fsm = .absorbing) (hc : s.cfg = some d)
    (hr : rangeOk offset length window.length = true) :
    exec (.absorb offset length window) s =
      if d.rate < s.fill then .fault .fillPastRate
      else if s.fill = d.rate then .next (takeFault opAbsorb .invariant s)
      else if length = 0 then .next (respondOk opAbsorb [] s)
      else .next (respondOk opAbsorb [] (absorbBytes d (absorbInput offset length window) s)) := by
  rcases hf with hf | hf <;> simp [exec, execAbsorb, hf, hc, hr]

/-- From the staged bytes on, the bytes an ABSORB has before it are its input's. -/
theorem getD_staged_append {s : State} {j : Nat} (hf : s.fill ≤ 144) (hj : s.fill ≤ j) (input : List Byte) :
    (readBytes s.buf s.fill ++ input).getD j 0 = input.getD (j - s.fill) 0 := by
  have hlen : (readBytes s.buf s.fill).length = s.fill := length_readBytes hf
  rw [List.getD_append_right _ _ _ _ (hlen.le.trans hj), hlen]

/-- The buffer after ABSORB's steps (a) to (d) (R144): the input behind the staged bytes where no block fills, or else
the bytes after the last whole block, over what the top-up wrote. -/
def stagedCells (d : DigestLength) (input : List Byte) (s : State) : BufferCells :=
  let bytes := readBytes s.buf s.fill ++ input
  let total := s.fill + input.length
  Vector.ofFn fun j =>
    if total < d.rate then (if s.fill ≤ j.val ∧ j.val < total then bytes.getD j.val 0 else s.buf[j])
    else if j.val < total % d.rate then bytes.getD (total - total % d.rate + j.val) 0
    else if s.fill ≤ j.val ∧ j.val < d.rate then bytes.getD j.val 0
    else s.buf[j]

theorem stagedCells_short {d : DigestLength} {input : List Byte} {s : State}
    (h : s.fill + input.length < d.rate) : writeBytes s.buf s.fill input = stagedCells d input s := by
  have hr := d.rate_le
  apply Vector.ext
  intro j hj
  rw [getElem_writeBytes]
  simp only [stagedCells, Vector.getElem_ofFn, if_pos h]
  split
  · next hin => rw [getD_staged_append (by omega) hin.1]
  · rfl

theorem stagedCells_long {d : DigestLength} {input : List Byte} {s : State} (hf : s.fill < d.rate)
    (h : d.rate ≤ s.fill + input.length) :
    writeBytes (writeBytes s.buf s.fill (input.take (d.rate - s.fill))) 0
      ((readBytes s.buf s.fill ++ input).drop (s.fill + input.length - (s.fill + input.length) % d.rate)) =
      stagedCells d input s := by
  have hr := d.rate_le
  have hmod := Nat.mod_le (s.fill + input.length) d.rate
  have hrest : ((readBytes s.buf s.fill ++ input).drop
      (s.fill + input.length - (s.fill + input.length) % d.rate)).length = (s.fill + input.length) % d.rate := by
    rw [List.length_drop, length_staged_append hf hr]
    omega
  have htop : s.fill + (input.take (d.rate - s.fill)).length = d.rate := by
    rw [List.length_take]
    omega
  apply Vector.ext
  intro j hj
  rw [getElem_writeBytes, getElem_writeBytes, hrest, htop]
  simp only [stagedCells, Vector.getElem_ofFn, if_neg (Nat.not_lt.mpr h), Nat.zero_le, true_and, Nat.zero_add,
    Nat.sub_zero]
  split
  · rw [List.getD_eq_getElem?_getD, List.getElem?_drop, List.getD_eq_getElem?_getD]
  · split
    · next hin =>
      rw [getD_staged_append (by omega) hin.1, List.getD_eq_getElem?_getD,
        List.getElem?_take_of_lt (by omega), List.getD_eq_getElem?_getD]
    · rfl

/-- ABSORB's steps (a) to (d) as one update of the state, whether or not a block fills (R144). -/
theorem absorbBytes_eq {d : DigestLength} {input : List Byte} {s : State} (hf : s.fill < d.rate) :
    absorbBytes d input s =
      { s with
        fsm := .absorbing
        A := absorbAll d s.A (fullBlocks d.rate (readBytes s.buf s.fill ++ input))
        fill := (s.fill + input.length) % d.rate
        buf := stagedCells d input s } := by
  rcases Nat.lt_or_ge (s.fill + input.length) d.rate with h | h
  · rw [absorbBytes_short hf h, stagedCells_short h, Nat.mod_eq_of_lt h,
      fullBlocks_of_lt (by rwa [length_staged_append hf d.rate_le]), absorbAll_nil]
  · rw [absorbBytes_long hf h, stagedCells_long hf h]

/-- Settles O25: ABSORB's frame, one equation of `exec` for each fault, and `absorbBytes_eq` for its steps. -/
theorem absorbTakesInTheInputOrFaults : Obligations.AbsorbTakesInTheInputOrFaults := by
  refine ⟨fun offset length bufSize payload rest hlen => decode_absorbFrame (by decide) (by decide) hlen rest,
    fun offset length window s => exec_absorb_of_unconfigured,
    fun offset length window s => exec_absorb_of_finalized,
    fun offset length window s hf hr => exec_absorb_of_badRange hf (rangeOk_eq_false.mpr hr),
    fun offset length window s d hf hc hoffset hlength hsum => ?_⟩
  have hr : rangeOk offset length window.length = true := rangeOk_eq_true.mpr ⟨hoffset, hlength, hsum⟩
  rw [exec_absorb_of_inRange hf hc hr]
  refine ⟨fun hfull => ?_, fun hlt h0 => ?_, fun hlt h0 => ?_⟩
  · rw [if_neg hfull.not_gt, if_pos hfull]
    rfl
  · rw [if_neg hlt.not_gt, if_neg hlt.ne, if_pos h0]
    rfl
  · rw [if_neg hlt.not_gt, if_neg hlt.ne, if_neg h0, absorbBytes_eq hlt]
    simp only [stagedCells, length_absorbInput hr]
    rfl

/-! FINALIZE (R145). -/

theorem exec_finalize_of_unconfigured {s : State} (hf : s.fsm = .unconfigured) :
    exec .finalize s = .next (takeFault opFinalize .notConfigured s) := by
  simp only [exec, execFinalize, hf]

theorem exec_finalize_of_finalized {s : State} (hf : s.fsm = .finalized) :
    exec .finalize s = .next (takeFault opFinalize .sequence s) := by
  simp only [exec, execFinalize, hf]

/-- FINALIZE in a configured session that is not finalized: what `fill` decides. -/
theorem exec_finalize_of_configured {s : State} {d : DigestLength} (hf : s.fsm = .ready ∨ s.fsm = .absorbing)
    (hc : s.cfg = some d) :
    exec .finalize s =
      if d.rate < s.fill then .fault .fillPastRate
      else if s.fill = d.rate then .next (takeFault opFinalize .invariant s)
      else .next (respondOk opFinalize (packWords (digestOf d (finalizeSponge d s).A)) (finalizeSponge d s)) := by
  rcases hf with hf | hf <;> simp [exec, execFinalize, hf, hc]

/-- The padding byte by byte (R149): the delimiter first, zeros, and 0x80 ORed into whatever is last. -/
theorem getD_messagePad {rate f k : Nat} (K : Bool) (hk : k < rate - f) :
    (messagePad rate K f).getD k 0 =
      if k = rate - f - 1 then (if f = rate - 1 then delimiter K else 0x00) ||| 0x80
      else if k = 0 then delimiter K else 0x00 := by
  unfold messagePad
  split
  · next hroom =>
    rw [if_neg (show f ≠ rate - 1 by omega)]
    cases k with
    | zero => simp [show 0 ≠ rate - f - 1 by omega]
    | succ k =>
      rw [List.getD_cons_succ, if_neg (Nat.succ_ne_zero k)]
      rcases Nat.lt_or_ge k (rate - f - 2) with hzero | hlast
      · rw [List.getD_append _ _ _ _ (by simpa using hzero), List.getD_replicate (h := hzero), if_neg (by omega)]
      · obtain rfl : k = rate - f - 2 := by omega
        rw [List.getD_append_right _ _ _ _ (by simp), if_pos (by omega)]
        simp
  · next hfull =>
    obtain rfl : k = 0 := by omega
    rw [if_pos (by omega), if_pos (by omega), List.getD_cons_zero]

/-- The block FINALIZE absorbs (R145). -/
def paddedBlock (d : DigestLength) (s : State) : List Byte :=
  (List.range d.rate).map fun j =>
    if j = d.rate - 1 then (if s.fill = d.rate - 1 then delimiter s.K else 0x00) ||| 0x80
    else if j < s.fill then s.buf.toList.getD j 0
    else if j = s.fill then delimiter s.K
    else 0x00

theorem length_paddedBlock (d : DigestLength) (s : State) : (paddedBlock d s).length = d.rate := by
  simp [paddedBlock]

/-- FINALIZE's padding leaves the block in the cells below `rate` (R145). -/
theorem getElem_padBuffer_below {d : DigestLength} {s : State} (hf : s.fill < d.rate) {j : Nat} (hj : j < d.rate)
    (hj' : j < 144) : (padBuffer d s.K s.fill s.buf)[j] = (paddedBlock d s).getD j 0 := by
  have hcell : s.buf.toList.getD j 0 = s.buf[j] := by simp [List.getD_eq_getElem?_getD, hj']
  rw [getElem_padBuffer hf, List.getD_eq_getElem (paddedBlock d s) _ (by rwa [length_paddedBlock])]
  simp only [paddedBlock, List.getElem_map, List.getElem_range, hcell]
  rcases Nat.lt_or_ge j s.fill with hlo | hhi
  · rw [if_pos (.inl hlo), if_neg (by omega), if_pos hlo]
  · rw [if_neg (by omega), getD_messagePad s.K (by omega), if_neg (Nat.not_lt.mpr hhi)]
    have hlast : j - s.fill = d.rate - s.fill - 1 ↔ j = d.rate - 1 := by omega
    have hfirst : j - s.fill = 0 ↔ j = s.fill := by omega
    simp only [hlast, hfirst]

theorem readBytes_padBuffer_eq_paddedBlock {d : DigestLength} {s : State} (hf : s.fill < d.rate) :
    readBytes (padBuffer d s.K s.fill s.buf) d.rate = paddedBlock d s := by
  have hr := d.rate_le
  have hlen : (readBytes (padBuffer d s.K s.fill s.buf) d.rate).length = d.rate := length_readBytes hr
  refine List.ext_getElem (hlen.trans (length_paddedBlock d s).symm) fun j hj hj' => ?_
  have hcell := getElem?_readBytes (buf := padBuffer d s.K s.fill s.buf) (hlen ▸ hj) hr
  rw [List.getElem?_eq_getElem hj, Option.some_inj] at hcell
  rw [hcell, getElem_padBuffer_below hf (hlen ▸ hj), List.getD_eq_getElem _ _ hj']

/-- The padded buffer as a whole: the block below `rate`, the cells above as they were (R145). -/
theorem padBuffer_eq {d : DigestLength} {s : State} (hf : s.fill < d.rate) :
    padBuffer d s.K s.fill s.buf =
      Vector.ofFn fun j => if j.val < d.rate then (paddedBlock d s).getD j.val 0 else s.buf[j] := by
  apply Vector.ext
  intro j hj
  rw [Vector.getElem_ofFn]
  split
  · next hlo => exact getElem_padBuffer_below hf hlo hj
  · next hhi => exact (getElem_padBuffer hf j hj).trans (if_pos (.inr (Nat.not_lt.mp hhi)))

/-- Settles O26: FINALIZE's word, one equation of `exec` for each fault, and the padded buffer as the block. -/
theorem finalizePadsAbsorbsOnceAndAnswersOrFaults : Obligations.FinalizePadsAbsorbsOnceAndAnswersOrFaults := by
  refine ⟨fun rest => rfl, fun s => exec_finalize_of_unconfigured, fun s => exec_finalize_of_finalized,
    fun s d hf hc => ?_⟩
  rw [exec_finalize_of_configured hf hc]
  refine ⟨fun hfull => ?_, fun hlt => ?_⟩
  · rw [if_neg hfull.not_gt, if_pos hfull]
    rfl
  · rw [if_neg hlt.not_gt, if_neg hlt.ne, finalizeSponge, readBytes_padBuffer_eq_paddedBlock hlt, padBuffer_eq hlt]
    rfl

/-! STATUS (R146). -/

/-- The STATUS word as R30's OR of shifted fields. -/
theorem toNat_statusWord {s : State} (hfill : s.fill ≤ 144) :
    (statusWord s).toNat =
      s.fsm.code.toNat ||| (s.K.toNat <<< 2) ||| (s.lastFault.code.toNat <<< 4) ||| (s.fill <<< 8) |||
        (rateOrZero s.cfg <<< 16) ||| (dlenOrZero s.cfg <<< 24) := by
  simp only [statusWord, BitVec.toNat_append, toNat_byte_of_le_rateMax hfill,
    toNat_byte_of_le_rateMax (rateOrZero_le s.cfg), toNat_byte_of_le_rateMax (dlenOrZero_le s.cfg),
    BitVec.toNat_ofBool, Nat.shiftLeft_or_distrib, ← Nat.shiftLeft_add]
  simp only [BitVec.ofNat_eq_ofNat, BitVec.toNat_ofNat, Nat.zero_mod, Nat.zero_shiftLeft, Nat.or_zero, Nat.reduceAdd]
  simp only [Nat.or_assoc, Nat.or_comm, Nat.or_left_comm]

/-- Settles O27: STATUS answers `statusWord` in every state, and `toNat_statusWord` is R30's formula. -/
theorem statusAnswersTheStatusRegister : Obligations.StatusAnswersTheStatusRegister := by
  refine ⟨fun rest => rfl, fun s => ⟨rfl, fun hfill => ?_⟩⟩
  rw [← BitVec.setWidth_eq (statusWord s), ← BitVec.ofNat_toNat, toNat_statusWord hfill]
  cases s.cfg <;> rfl

end Sys2Proof.Machine
end

section
/-!
PROOFS. The family of 60_exceptions.md: the first cause in R208's order is the one reported, and with no cause the
command succeeds.
-/

namespace Sys2Proof.Machine

/-- The codes in the order of R208. -/
def faultOrder : List FaultCode :=
  [.illegalCommand, .notConfigured, .sequence, .badDigestLength, .badRange, .invariant]

/-- R208's order is the order of the codes of R201. -/
theorem faultOrder_pairwise : faultOrder.Pairwise fun b c => b.code < c.code := by decide

/-- Every cause with a lower code stands before `c` in R208's order. -/
theorem mem_before_of_code_lt {before after : List FaultCode} {b c : FaultCode}
    (horder : faultOrder = before ++ c :: after) (hb : b ∈ faultOrder) (hlt : b.code < c.code) : b ∈ before := by
  have hsorted := faultOrder_pairwise
  rw [horder, List.pairwise_append, List.pairwise_cons] at hsorted
  obtain ⟨-, ⟨hafter, -⟩, -⟩ := hsorted
  rw [horder, List.mem_append, List.mem_cons] at hb
  rcases hb with hb | rfl | hb
  · exact hb
  · exact absurd hlt (BitVec.lt_irrefl _)
  · exact absurd (hafter b hb) (BitVec.lt_asymm hlt)

/-- `c` applies, and no cause before it in R208's order does. -/
def FirstCause (s : State) (i : Instr) (c : FaultCode) : Prop :=
  FaultApplies s i c ∧ ∀ b ∈ faultOrder, b.code < c.code → ¬ FaultApplies s i b

/-- The sessions that ABSORB and FINALIZE act in are those without NOT_CONFIGURED and SEQUENCE (R203, R204). -/
theorem ready_or_absorbing_of_ne {f : Fsm} (hun : f ≠ .unconfigured) (hfin : f ≠ .finalized) :
    f = .ready ∨ f = .absorbing := by
  cases f with
  | unconfigured => exact absurd rfl hun
  | ready => exact .inl rfl
  | absorbing => exact .inr rfl
  | finalized => exact absurd rfl hfin

theorem absorb_session_of_no_cause {s : State} {offset length : BitVec 32} {window : List Byte}
    (hnc : ¬ FaultApplies s (.absorb offset length window) .notConfigured)
    (hseq : ¬ FaultApplies s (.absorb offset length window) .sequence) : s.fsm = .ready ∨ s.fsm = .absorbing :=
  ready_or_absorbing_of_ne (fun h => hnc (.inl ⟨rfl, h⟩)) fun h => hseq (.inr (.inl ⟨rfl, h⟩))

theorem absorb_rangeOk_of_no_cause {s : State} {offset length : BitVec 32} {window : List Byte}
    (hrange : ¬ FaultApplies s (.absorb offset length window) .badRange) :
    rangeOk offset length window.length = true :=
  Bool.of_not_eq_false fun h => hrange (.inr (.inr (.inl ⟨rfl, rangeOk_eq_false.mp h⟩)))

theorem finalize_session_of_no_cause {s : State} (hnc : ¬ FaultApplies s .finalize .notConfigured)
    (hseq : ¬ FaultApplies s .finalize .sequence) : s.fsm = .ready ∨ s.fsm = .absorbing :=
  ready_or_absorbing_of_ne (fun h => hnc (.inl ⟨rfl, h⟩)) fun h => hseq (.inr (.inl ⟨rfl, h⟩))

/-- A command takes the fault of its first cause: the checks of each meaning stand in R208's order. -/
theorem exec_of_firstCause {s : State} {i : Instr} {c : FaultCode} (h : FirstCause s i c) :
    exec i s = .next (takeFault i.opcode c s) := by
  obtain ⟨happlies, hbefore⟩ := h
  cases i with
  | config b =>
    rcases happlies with ⟨rfl, hf⟩ | ⟨rfl, hb⟩
    · exact exec_config_of_configured hf
    · have hun : s.fsm = .unconfigured :=
        not_not.mp fun hf => hbefore .sequence (by decide) (by decide) (.inl ⟨rfl, hf⟩)
      exact exec_config_of_badLength hun hb
  | setmode km =>
    rcases happlies with ⟨rfl, hf⟩ | ⟨rfl, hf⟩
    · exact exec_setmode_of_unconfigured hf
    · exact exec_setmode_of_absorbing hf
  | init =>
    obtain ⟨rfl, hf⟩ := happlies
    exact if_pos hf
  | absorb offset length window =>
    rcases happlies with ⟨rfl, hf⟩ | ⟨rfl, hf⟩ | ⟨rfl, hr⟩ | ⟨rfl, d, hc, hfull⟩
    · exact exec_absorb_of_unconfigured hf
    · exact exec_absorb_of_finalized hf
    · have hf := absorb_session_of_no_cause (hbefore .notConfigured (by decide) (by decide))
        (hbefore .sequence (by decide) (by decide))
      exact exec_absorb_of_badRange hf (rangeOk_eq_false.mpr hr)
    · have hf := absorb_session_of_no_cause (hbefore .notConfigured (by decide) (by decide))
        (hbefore .sequence (by decide) (by decide))
      have hr := absorb_rangeOk_of_no_cause (hbefore .badRange (by decide) (by decide))
      rw [exec_absorb_of_inRange hf hc hr, if_neg hfull.not_gt, if_pos hfull]
      rfl
  | finalize =>
    rcases happlies with ⟨rfl, hf⟩ | ⟨rfl, hf⟩ | ⟨rfl, d, hc, hfull⟩
    · exact exec_finalize_of_unconfigured hf
    · exact exec_finalize_of_finalized hf
    · have hf := finalize_session_of_no_cause (hbefore .notConfigured (by decide) (by decide))
        (hbefore .sequence (by decide) (by decide))
      rw [exec_finalize_of_configured hf hc, if_neg hfull.not_gt, if_pos hfull]
      rfl
  | status => exact happlies.elim

/-- Where the two invariants hold, a session past its checks has a configuration, and a buffer that is not full has
room (10_state.md R26, R36). -/
theorem exists_cfg_fill_lt {s : State} (hcfg : s.cfg = none ↔ s.fsm = .unconfigured)
    (hfill : ∀ d ∈ s.cfg, s.fill ≤ d.rate) (hf : s.fsm = .ready ∨ s.fsm = .absorbing)
    (hfull : ¬ ∃ d, s.cfg = some d ∧ s.fill = d.rate) : ∃ d, s.cfg = some d ∧ s.fill < d.rate := by
  have hun : s.fsm ≠ .unconfigured := by rcases hf with hf | hf <;> simp [hf]
  obtain ⟨d, hc⟩ := Option.ne_none_iff_exists'.mp (mt hcfg.mp hun)
  exact ⟨d, hc, lt_of_le_of_ne (hfill d hc) fun h => hfull ⟨d, hc, h⟩⟩

/-- With no cause a command ends in `OK`, on a state that still has its `lastFault` and has sent nothing else. -/
theorem exec_of_no_cause {s : State} {i : Instr} (hcfg : s.cfg = none ↔ s.fsm = .unconfigured)
    (hfill : ∀ d ∈ s.cfg, s.fill ≤ d.rate) (hno : ∀ c, ¬ FaultApplies s i c) :
    ∃ data u, exec i s = .next (respondOk i.opcode data u) ∧ u.lastFault = s.lastFault ∧ u.portOut = s.portOut := by
  cases i with
  | config b =>
    have hun : s.fsm = .unconfigured := not_not.mp fun hf => hno .sequence (.inl ⟨rfl, hf⟩)
    have hb : b.toNat ∈ [224, 256, 384, 512] := not_not.mp fun hb => hno .badDigestLength (.inr ⟨rfl, hb⟩)
    obtain ⟨d, hd⟩ := mem_digestBits_iff.mp hb
    exact ⟨[], _, exec_config_of_unconfigured hun hd, rfl, rfl⟩
  | setmode km =>
    have hf : s.fsm = .ready ∨ s.fsm = .finalized := by
      cases hf : s.fsm with
      | unconfigured => exact absurd (.inl ⟨rfl, hf⟩) (hno .notConfigured)
      | ready => exact .inl rfl
      | absorbing => exact absurd (.inr ⟨rfl, hf⟩) (hno .sequence)
      | finalized => exact .inr rfl
    exact ⟨[], _, exec_setmode_of_ready_or_finalized hf, rfl, rfl⟩
  | init => exact ⟨[], _, if_neg fun hf => hno .notConfigured ⟨rfl, hf⟩, rfl, rfl⟩
  | absorb offset length window =>
    have hf := absorb_session_of_no_cause (hno .notConfigured) (hno .sequence)
    have hr := absorb_rangeOk_of_no_cause (hno .badRange)
    obtain ⟨d, hc, hlt⟩ := exists_cfg_fill_lt hcfg hfill hf fun h => hno .invariant (.inr (.inr (.inr ⟨rfl, h⟩)))
    have hexec := exec_absorb_of_inRange hf hc hr
    rw [if_neg hlt.not_gt, if_neg hlt.ne] at hexec
    by_cases h0 : length = 0
    · exact ⟨[], s, hexec.trans (if_pos h0), rfl, rfl⟩
    · exact ⟨[], _, hexec.trans (if_neg h0), absorbBytes_lastFault .., absorbBytes_portOut ..⟩
  | finalize =>
    have hf := finalize_session_of_no_cause (hno .notConfigured) (hno .sequence)
    obtain ⟨d, hc, hlt⟩ := exists_cfg_fill_lt hcfg hfill hf fun h => hno .invariant (.inr (.inr ⟨rfl, h⟩))
    have hexec := exec_finalize_of_configured hf hc
    rw [if_neg hlt.not_gt, if_neg hlt.ne] at hexec
    exact ⟨_, _, hexec, rfl, rfl⟩
  | status => exact ⟨[statusWord s], s, rfl, rfl, rfl⟩

/-- Settles O29: an illegal word by `step_of_illegal`, a command with a first cause by `exec_of_firstCause`, and one
without a cause by `exec_of_no_cause`. -/
theorem firstApplicableFaultIsReported : Obligations.FirstApplicableFaultIsReported := by
  refine ⟨fun s why op rest => step_of_illegal, fun i s hcfg hfill =>
    ⟨fun before after c horder hbefore happlies => ?_, fun hno => ?_⟩⟩
  · have hfirst : FirstCause s i c :=
      ⟨happlies, fun b hb hlt => hbefore b (mem_before_of_code_lt horder hb hlt)⟩
    exact exec_of_firstCause hfirst
  · obtain ⟨data, u, hexec, hlast, hout⟩ := exec_of_no_cause hcfg hfill hno
    exact ⟨_, data, hexec, hlast, by rw [respondOk_portOut, hout]; rfl⟩

end Sys2Proof.Machine
end

section
/-!
PROOFS. Two facts of the permutation's constants and of theta: the round constants against their generator
(40_permutation.md R101), and that theta is linear (section 3, theta's corner cases).
-/

namespace Sys2Proof.Machine

/-! The round constants (R101). -/

/-- One turn of the LFSR that generates the round constants. -/
def lfsrTurn (r : BitVec 8) : BitVec 8 := (r <<< 1) ^^^ (if r.getLsbD 7 then 0x71 else 0)

/-- The output bits of the LFSR, from the state `r` on: bit 0 of each of `n` states. -/
def lfsrBits : Nat → BitVec 8 → List Bool
  | 0, _ => []
  | n + 1, r => r.getLsbD 0 :: lfsrBits n (lfsrTurn r)

theorem getD_lfsrBits {R : Nat → BitVec 8} (hnext : ∀ n, R (n + 1) = lfsrTurn (R n)) {n m t : Nat} (ht : t < n) :
    (lfsrBits n (R m)).getD t false = (R (m + t)).getLsbD 0 := by
  induction n generalizing m t with
  | zero => omega
  | succ n ih =>
    rw [lfsrBits]
    cases t with
    | zero => rfl
    | succ t => rw [List.getD_cons_succ, ← hnext, ih (by omega), Nat.add_right_comm, Nat.add_assoc]

/-- The table against the LFSR's first 168 output bits. -/
theorem roundConstants_eq_lfsrBits : ∀ ir : Fin 24, ∀ k < 64,
    roundConstants[ir].getLsbD k = true ↔
      ∃ j < 7, k = 2 ^ j - 1 ∧ (lfsrBits 168 1).getD (j + 7 * ir) false = true := by
  decide

/-- Settles O1: any sequence of LFSR states has the output bits that the table was checked against. -/
theorem roundConstantsAreTheLfsrBits : Obligations.RoundConstantsAreTheLfsrBits := by
  intro R h0 hnext ir k hk
  rw [roundConstants_eq_lfsrBits ir k hk]
  refine exists_congr fun j => and_congr_right fun hj => and_congr_right fun _ => ?_
  rw [← h0, getD_lfsrBits hnext (by omega), Nat.zero_add]

/-! theta is linear. -/

/-- The lane-by-lane XOR of two states. -/
def xorLanes (A B : Lanes) : Lanes := Vector.ofFn fun i => A[i] ^^^ B[i]

theorem lane_xorLanes (A B : Lanes) (x y : Nat) : lane (xorLanes A B) x y = lane A x y ^^^ lane B x y := by
  simp [lane, xorLanes]

theorem parityOf_xorLanes (A B : Lanes) (x : Nat) :
    parityOf (xorLanes A B) x = parityOf A x ^^^ parityOf B x := by
  simp [parityOf, lane_xorLanes, BitVec.xor_assoc, lane_xor_left_comm]

/-- Settles O3: lanes, column parities and rotations all commute with the XOR of two states. -/
theorem thetaIsLinear : Obligations.ThetaIsLinear := by
  intro A B
  change thetaStep (xorLanes A B) = xorLanes (thetaStep A) (thetaStep B)
  refine lanes_ext fun x _ y _ => ?_
  rw [lane_xorLanes, lane_thetaStep, lane_thetaStep, lane_thetaStep, lane_xorLanes, parityOf_xorLanes,
    parityOf_xorLanes, rotl64_xor]
  simp [BitVec.xor_assoc, lane_xor_left_comm]

end Sys2Proof.Machine
end

section
/-!
PROOFS. The command stream as a whole: the decoder and the encoder undo each other (30_encoding.md sections 1 to 3),
when the decoder waits (R70, R86), and what a step makes of the words at the port.
-/

namespace Sys2Proof.Machine

/-! An encoded command decodes to itself, one lemma for each format with operands (R72 to R75). -/

/-- The fields of CONFIG's word: OP, the reserved byte and BITLEN. -/
theorem encodeConfig_fields (b : BitVec 16) :
    opcodeOf (b ++ (0 : BitVec 8) ++ opConfig) = opConfig ∧
      (b ++ (0 : BitVec 8) ++ opConfig).extractLsb' 8 8 = 0 ∧
      (b ++ (0 : BitVec 8) ++ opConfig).extractLsb' 16 16 = b := by
  refine ⟨BitVec.extractLsb'_append_eq_right, ?_, ?_⟩
  · simp (disch := decide) only [BitVec.extractLsb'_append_eq_of_add_le, BitVec.extractLsb'_append_eq_of_le,
      Nat.reduceSub, BitVec.extractLsb'_eq_self]
  · simp (disch := decide) only [BitVec.extractLsb'_append_eq_of_le, Nat.reduceSub, BitVec.extractLsb'_eq_self]

theorem decode_encode_config (b : BitVec 16) (rest : List Word) :
    decode (encode (.config b) ++ rest) = .command (.config b) rest := by
  obtain ⟨hop, hres, hbitlen⟩ := encodeConfig_fields b
  refine decode_cons_of_ok (by rw [hop]; decide) ?_ rest
  rw [decodeSingle_config hop, configWord, if_pos hres, hbitlen]

theorem decode_encode_setmode (km : Bool) (rest : List Word) :
    decode (encode (.setmode km) ++ rest) = .command (.setmode km) rest := by
  cases km <;> rfl

theorem decode_encode_absorb {window : List Byte} (offset length : BitVec 32) (hw : window.length < 2 ^ 32)
    (rest : List Word) :
    decode (encode (.absorb offset length window) ++ rest) = .command (.absorb offset length window) rest := by
  have hsize : (BitVec.ofNat 32 window.length).toNat = window.length := Nat.mod_eq_of_lt hw
  have hframe := decode_absorbFrame (w := encodePlain opAbsorb) (offset := offset) (length := length)
    (bufSize := BitVec.ofNat 32 window.length) (payload := packWords window) (by decide) (by decide)
    (by rw [hsize, length_packWords, payloadWords]) rest
  rwa [hsize, windowOf, take_unpackWords_packWords] at hframe

/-- Settles O13: format by format; the formats without operands are single words that evaluate. -/
theorem decodeOfEncodeIsTheCommand : Obligations.DecodeOfEncodeIsTheCommand := by
  intro i rest hwf
  cases i with
  | config b => exact decode_encode_config b rest
  | setmode km => exact decode_encode_setmode km rest
  | init => rfl
  | absorb offset length window => exact decode_encode_absorb offset length (of_decide_eq_true hwf) rest
  | finalize => rfl
  | status => rfl

/-! What the decoder can make of the words at the port (R70, R86). -/

/-- The words after an ABSORB's word 0 end before its frame does (R70, R74). -/
def TruncatedFrame (tail : List Word) : Prop :=
  tail.length < 3 ∨ ∃ offset length bufSize more, tail = offset :: length :: bufSize :: more ∧
    more.length < payloadWords bufSize.toNat

theorem decode_truncatedFrame {w : Word} {tail : List Word} (hop : opcodeOf w = opAbsorb)
    (h : TruncatedFrame tail) : decode (w :: tail) = .wait := by
  rw [decode, if_pos hop]
  rcases h with hlt | ⟨offset, length, bufSize, more, rfl, hmore⟩
  · match tail, hlt with
    | [], _ => rfl
    | [_], _ => rfl
    | [_, _], _ => rfl
  · rw [decodeAbsorb, if_pos hmore]

/-- The words after an ABSORB's word 0 end too early, or are its three header words, its payload and the rest. -/
theorem truncatedFrame_or_frame (tail : List Word) :
    TruncatedFrame tail ∨ ∃ offset length bufSize payload rest,
      tail = offset :: length :: bufSize :: (payload ++ rest) ∧ payload.length = payloadWords bufSize.toNat := by
  match tail with
  | [] => exact .inl (.inl (by decide))
  | [_] => exact .inl (.inl (by simp))
  | [_, _] => exact .inl (.inl (by simp))
  | offset :: length :: bufSize :: more =>
    rcases Nat.lt_or_ge more.length (payloadWords bufSize.toNat) with hlt | hge
    · exact .inl (.inr ⟨offset, length, bufSize, more, rfl, hlt⟩)
    · refine .inr ⟨offset, length, bufSize, more.take (payloadWords bufSize.toNat),
        more.drop (payloadWords bufSize.toNat), ?_, List.length_take_of_le hge⟩
      rw [List.take_append_drop]

/-- Every list of words: empty, a word that is not ABSORB's, a truncated ABSORB, or an ABSORB with its whole frame. -/
theorem decode_cases (ws : List Word) :
    ws = [] ∨
    (∃ w rest, ws = w :: rest ∧ opcodeOf w ≠ opAbsorb ∧
      ((∃ i, decodeSingle w = .ok i ∧ decode ws = .command i rest) ∨
        ∃ why, decode ws = .illegal why (opcodeOf w) rest)) ∨
    (∃ w tail, ws = w :: tail ∧ opcodeOf w = opAbsorb ∧ TruncatedFrame tail ∧ decode ws = .wait) ∨
    (∃ w offset length bufSize payload rest, ws = w :: offset :: length :: bufSize :: (payload ++ rest) ∧
      payload.length = payloadWords bufSize.toNat ∧
      ((w = encodePlain opAbsorb ∧
          decode ws = .command (.absorb offset length (windowOf bufSize.toNat payload)) rest) ∨
        decode ws = .illegal .reservedBits opAbsorb rest)) := by
  match ws with
  | [] => exact .inl rfl
  | w :: tail =>
    by_cases hop : opcodeOf w = opAbsorb
    · rcases truncatedFrame_or_frame tail with htr | ⟨offset, length, bufSize, payload, rest, rfl, hlen⟩
      · exact .inr (.inr (.inl ⟨w, tail, rfl, hop, htr, decode_truncatedFrame hop htr⟩))
      · refine .inr (.inr (.inr ⟨w, offset, length, bufSize, payload, rest, rfl, hlen, ?_⟩))
        by_cases hres : w.extractLsb' 8 24 = 0
        · exact .inl ⟨eq_encodePlain_iff.mpr ⟨hop, hres⟩, decode_absorbFrame hop hres hlen rest⟩
        · exact .inr (decode_absorbFrame_reserved hop hres hlen rest)
    · refine .inr (.inl ⟨w, tail, rfl, hop, ?_⟩)
      cases hw : decodeSingle w with
      | ok i => exact .inl ⟨i, rfl, decode_cons_of_ok hop hw tail⟩
      | error why => exact .inr ⟨why, decode_cons_of_error hop hw tail⟩

/-! A word that is a whole command is that command's encoding (R71 to R73). -/

theorem encode_of_plainWord {w : Word} {i j : Instr} {op : Byte} (hop : opcodeOf w = op)
    (hj : encode j = [encodePlain op]) (h : plainWord w j = .ok i) : encode i = [w] := by
  by_cases hres : w.extractLsb' 8 24 = 0
  · rw [plainWord_eq_ok hres] at h
    cases h
    rw [hj, eq_encodePlain_iff.mpr ⟨hop, hres⟩]
  · rw [plainWord_eq_error hres] at h
    cases h

theorem encode_of_configWord {w : Word} {i : Instr} (hop : opcodeOf w = opConfig) (h : configWord w = .ok i) :
    encode i = [w] := by
  rw [configWord] at h
  split at h
  · next hres =>
    cases h
    have hword := configFields_append w
    rw [hres, hop] at hword
    rw [encode, BitVec.append_assoc]
    exact congrArg (fun v => [v]) hword
  · cases h

theorem encode_of_setmodeWord {w : Word} {i : Instr} (hop : opcodeOf w = opSetmode) (h : setmodeWord w = .ok i) :
    encode i = [w] := by
  rw [setmodeWord] at h
  split at h
  · next hres =>
    cases h
    have hbit : w.extractLsb' 8 1 = BitVec.ofBool (w.getLsbD 8) := by
      refine BitVec.eq_of_getLsbD_eq fun k hk => ?_
      obtain rfl : k = 0 := by omega
      simp
    have hword := setmodeFields_append w
    rw [hres, hop, hbit] at hword
    rw [encode, BitVec.append_assoc]
    exact congrArg (fun v => [v]) hword
  · cases h

theorem encode_of_decodeSingle {w : Word} {i : Instr} (h : decodeSingle w = .ok i) : encode i = [w] := by
  by_cases h1 : opcodeOf w = opConfig
  · exact encode_of_configWord h1 (decodeSingle_config h1 ▸ h)
  by_cases h2 : opcodeOf w = opSetmode
  · exact encode_of_setmodeWord h2 (decodeSingle_setmode h2 ▸ h)
  by_cases h3 : opcodeOf w = opInit
  · exact encode_of_plainWord h3 rfl (decodeSingle_init h3 ▸ h)
  by_cases h5 : opcodeOf w = opFinalize
  · exact encode_of_plainWord h5 rfl (decodeSingle_finalize h5 ▸ h)
  by_cases h6 : opcodeOf w = opStatus
  · exact encode_of_plainWord h6 rfl (decodeSingle_status h6 ▸ h)
  rw [decodeSingle_unassigned h1 h2 h3 h5 h6] at h
  cases h

/-- A command of a single word carries no window, so it is well formed. -/
theorem wellFormed_of_encode_singleton {i : Instr} {w : Word} (h : encode i = [w]) : i.wellFormed = true := by
  cases i with
  | absorb offset length window => simp [encode] at h
  | _ => rfl

/-- Settles O14: `decode_cases` with the command known; a single word is `encode i`, an ABSORB's frame is its header
and its payload. -/
theorem decodedWordsAreTheEncodingOfTheCommand : Obligations.DecodedWordsAreTheEncodingOfTheCommand := by
  intro ws rest i h
  rcases decode_cases ws with rfl | ⟨w, rest', rfl, _, ⟨j, hj, hd⟩ | ⟨_, hd⟩⟩ | ⟨_, _, rfl, _, _, hd⟩ |
    ⟨w, offset, length, bufSize, payload, rest', rfl, hlen, ⟨rfl, hd⟩ | hd⟩
  · cases h
  · cases hd.symm.trans h
    have henc := encode_of_decodeSingle hj
    refine ⟨wellFormed_of_encode_singleton henc, [w], rfl, by rw [henc], by rw [henc], ?_⟩
    rintro offset length window rfl
    simp [encode] at henc
  · cases hd.symm.trans h
  · cases hd.symm.trans h
  · cases hd.symm.trans h
    have hwindow := length_windowOf hlen
    have hsize : BitVec.ofNat 32 (windowOf bufSize.toNat payload).length = bufSize := by
      rw [hwindow, BitVec.ofNat_toNat, BitVec.setWidth_eq]
    refine ⟨decide_eq_true (hwindow.trans_lt bufSize.isLt),
      encodePlain opAbsorb :: offset :: length :: bufSize :: payload, rfl, ?_, ?_, ?_⟩
    · simp [encode, length_packWords, hwindow, hlen, payloadWords]
    · simp [encode, hsize]
    · rintro _ _ _ ⟨⟩
      rw [hwindow]
      rfl
  · cases hd.symm.trans h

/-- The decoder waits exactly at the end of the stream and inside an ABSORB's frame (R86). -/
theorem decode_eq_wait_iff {ws : List Word} :
    decode ws = .wait ↔ ws = [] ∨ ∃ w tail, ws = w :: tail ∧ opcodeOf w = opAbsorb ∧ TruncatedFrame tail := by
  refine ⟨fun h => ?_, ?_⟩
  · rcases decode_cases ws with rfl | ⟨w, rest', _, _, ⟨j, _, hd⟩ | ⟨_, hd⟩⟩ | ⟨w, tail, hws, hop, htr, _⟩ |
      ⟨_, _, _, _, _, _, _, _, ⟨_, hd⟩ | hd⟩
    · exact .inl rfl
    · cases hd.symm.trans h
    · cases hd.symm.trans h
    · exact .inr ⟨w, tail, hws, hop, htr⟩
    · cases hd.symm.trans h
    · cases hd.symm.trans h
  · rintro (rfl | ⟨w, tail, rfl, hop, htr⟩)
    · rfl
    · exact decode_truncatedFrame hop htr

/-- Settles O16: `decode_eq_wait_iff`, and a word that is not ABSORB's is decided by `decodeSingle` alone. -/
theorem decoderWaitsExactlyOnTruncatedStreams : Obligations.DecoderWaitsExactlyOnTruncatedStreams := by
  refine ⟨fun ws => decode_eq_wait_iff, fun w0 tail hop => ?_⟩
  cases hw : decodeSingle w0 with
  | ok i => exact .inl ⟨i, decode_cons_of_ok hop hw tail⟩
  | error why => exact .inr ⟨why, decode_cons_of_error hop hw tail⟩

/-- Settles O18: the decoder evaluates on each written-out word. -/
theorem writtenOutWordsDecode : Obligations.WrittenOutWordsDecode := by
  unfold Obligations.WrittenOutWordsDecode
  decide

/-! What a step makes of the words at the port. -/

theorem step_of_command {s : State} {i : Instr} {rest : List Word} (h : decode s.portIn = .command i rest) :
    step s = exec i { s with portIn := rest } := by
  simp only [step, h]

theorem step_of_wait {s : State} (h : decode s.portIn = .wait) : step s = .next s := by
  simp only [step, h]

/-- A port that holds an encoded command steps to that command. -/
theorem step_of_encode {s : State} {i : Instr} {rest : List Word} (hwf : i.wellFormed = true)
    (h : s.portIn = encode i ++ rest) : step s = exec i { s with portIn := rest } :=
  step_of_command (h ▸ decodeOfEncodeIsTheCommand i rest hwf)

/-- Settles O19: a step is `exec` of what the decoder reads, and an encoded command is read back. -/
theorem stepExecutesTheDecodedCommand : Obligations.StepExecutesTheDecodedCommand :=
  ⟨fun _ _ _ => step_of_command, fun _ _ _ => step_of_encode⟩

/-- Settles O21: the three forms are those on which the decoder waits. -/
theorem engineWaitsWithoutAWholeCommand : Obligations.EngineWaitsWithoutAWholeCommand := by
  refine ⟨fun s hin => ?_, fun s w0 tail hin hop hlt => ?_,
    fun s w0 offset length bufSize more hin hop hlt => ?_⟩
  · exact step_of_wait (decode_eq_wait_iff.mpr (.inl hin))
  · exact step_of_wait (decode_eq_wait_iff.mpr (.inr ⟨w0, tail, hin, hop, .inl hlt⟩))
  · exact step_of_wait (decode_eq_wait_iff.mpr
      (.inr ⟨w0, _, hin, hop, .inr ⟨offset, length, bufSize, more, rfl, hlt⟩⟩))

end Sys2Proof.Machine
end

section
/-!
PROOFS. The state invariants (10_state.md section 8) and what follows from them: every step keeps them and answers,
INVARIANT is never raised, and the session transitions (41_sponge_commands.md section 2); and who writes `K`
(10_state.md R27).
-/

namespace Sys2Proof.Machine

/-! The invariants hold at reset and every step keeps them. -/

/-- UNCONFIGURED and cleared: the states of an engine that no CONFIG has succeeded on. -/
theorem inv_of_unconfigured {s : State} (hc : s.cfg = none) (hf : s.fsm = .unconfigured) (hclear : s.Cleared) :
    s.Inv := by
  refine ⟨by simp [hc, hf], fun _ => hclear, fun _ => hclear, ?_, ?_, ?_⟩ <;> simp [hc]

/-- READY and cleared: the states that CONFIG and INIT leave. -/
theorem inv_of_ready {s : State} {d : DigestLength} (hc : s.cfg = some d) (hf : s.fsm = .ready)
    (hclear : s.Cleared) : s.Inv := by
  refine ⟨by simp [hc, hf], fun _ => hclear, fun _ => hclear, by simp [hf], by simp [hf], fun _ _ j _ => ?_⟩
  obtain ⟨-, hbuf, -⟩ := hclear
  simp [hbuf, zeroBuf]

theorem inv_of_absorbing {s : State} {d : DigestLength} (hc : s.cfg = some d) (hf : s.fsm = .absorbing)
    (hlt : s.fill < d.rate) (hhigh : ∀ (j : Nat) (hj : j < 144), d.rate ≤ j → s.buf[j] = 0) : s.Inv := by
  refine ⟨by simp [hc, hf], by simp [hf], by simp [hf], ?_, by simp [hf], ?_⟩
  · rintro _ hd _
    cases hc.symm.trans hd
    exact hlt
  · rintro _ hd j hj
    cases hc.symm.trans hd
    exact hhigh j j.isLt hj

theorem inv_of_finalized {s : State} {d : DigestLength} (hc : s.cfg = some d) (hf : s.fsm = .finalized)
    (hpos : 1 ≤ s.fill) (hle : s.fill ≤ d.rate)
    (hhigh : ∀ (j : Nat) (hj : j < 144), d.rate ≤ j → s.buf[j] = 0) : s.Inv := by
  refine ⟨by simp [hc, hf], by simp [hf], by simp [hf], by simp [hf], ?_, ?_⟩
  · rintro _ hd _
    cases hc.symm.trans hd
    exact ⟨hpos, hle⟩
  · rintro _ hd j hj
    cases hc.symm.trans hd
    exact hhigh j j.isLt hj

theorem State.Inv.buf_high {s : State} {d : DigestLength} (h : s.Inv) (hc : s.cfg = some d) (j : Nat) (hj : j < 144)
    (hle : d.rate ≤ j) : s.buf[j] = 0 := by
  obtain ⟨-, -, -, -, -, hhigh⟩ := h
  exact hhigh d hc ⟨j, hj⟩ hle

theorem State.Inv.cfg_eq_none_iff {s : State} (h : s.Inv) : s.cfg = none ↔ s.fsm = .unconfigured := h.1

theorem State.Inv.exists_cfg {s : State} (h : s.Inv) (hf : s.fsm ≠ .unconfigured) : ∃ d, s.cfg = some d :=
  Option.ne_none_iff_exists'.mp (mt h.cfg_eq_none_iff.mp hf)

/-- The invariants say nothing of `lastFault` and the port's streams, and SETMODE's `K`. -/
theorem State.Inv.congr {s t : State} (h : s.Inv) (hA : t.A = s.A) (hcfg : t.cfg = s.cfg) (hbuf : t.buf = s.buf)
    (hfill : t.fill = s.fill) (hfsm : t.fsm = s.fsm) : t.Inv := by
  simp only [State.Inv, State.Cleared, hA, hcfg, hbuf, hfill, hfsm]
  exact h

/-- Every command that answers keeps the invariants. -/
theorem exec_inv {i : Instr} {s t : State} (hinv : s.Inv) (h : exec i s = .next t) : t.Inv := by
  rcases exec_cases h with ⟨_, _, rfl⟩ | ⟨_, d, _, _, _, rfl⟩ | ⟨_, _, _, rfl⟩ | ⟨_, hf, rfl⟩ |
    ⟨_, _, _, d, _, hf, _, hc, hlt, ⟨_, rfl⟩ | ⟨_, rfl⟩⟩ | ⟨d, _, hf, hc, hlt, rfl⟩ | ⟨_, rfl⟩
  · exact hinv.congr rfl rfl rfl rfl rfl
  · exact inv_of_ready (d := d) rfl rfl ⟨rfl, rfl, rfl⟩
  · exact hinv.congr rfl rfl rfl rfl rfl
  · obtain ⟨d, hc⟩ := hinv.exists_cfg hf
    exact inv_of_ready (d := d) hc rfl ⟨rfl, rfl, rfl⟩
  · exact hinv.congr rfl rfl rfl rfl rfl
  · refine inv_of_absorbing (d := d) (by simpa using hc) (by simp) ?_ fun j hj hle => ?_
    · rw [respondOk_fill, (absorbBytes_spec hlt).2.1]
      exact Nat.mod_lt _ d.rate_pos
    · rw [respondOk_buf, absorbBytes_buf_high hlt j hj hle, hinv.buf_high hc j hj hle]
  · refine inv_of_finalized (d := d) hc rfl (Nat.le_add_left 1 s.fill) hlt fun j hj hle => ?_
    rw [respondOk_buf, finalizeSponge_buf, getElem_padBuffer hlt, if_pos (.inr hle), hinv.buf_high hc j hj hle]
  · exact hinv.congr rfl rfl rfl rfl rfl

/-- Settles O34: a wait and an illegal word write nothing that the invariants speak of, and `exec_inv` says the rest. -/
theorem stepKeepsTheInvariants : Obligations.StepKeepsTheInvariants := by
  intro s t hinv h
  rcases step_next_cases h with rfl | ⟨_, _, rfl⟩ | ⟨i, rest, _, hexec⟩
  · exact hinv
  · exact hinv.congr rfl rfl rfl rfl rfl
  · exact exec_inv (s := { s with portIn := rest }) (hinv.congr rfl rfl rfl rfl rfl) hexec

theorem inv_resetWith (k : Bool) : (State.resetWith k).Inv := inv_of_unconfigured rfl rfl ⟨rfl, rfl, rfl⟩

/-- Settles O33: hardware reset leaves an unconfigured, cleared engine. -/
theorem resetMeetsTheInvariants : Obligations.ResetMeetsTheInvariants := ⟨inv_resetWith _, inv_resetWith⟩

/-! Under the invariants every command answers, and none raises INVARIANT. -/

theorem State.Inv.fill_le_rate {s : State} (h : s.Inv) : ∀ d ∈ s.cfg, s.fill ≤ d.rate := by
  intro d hc
  cases hf : s.fsm with
  | unconfigured => cases (h.cfg_eq_none_iff.mpr hf).symm.trans hc
  | ready => exact (h.fill_lt_rate hc (.inl hf)).le
  | absorbing => exact (h.fill_lt_rate hc (.inr hf)).le
  | finalized =>
    obtain ⟨-, -, -, -, hfinalized, -⟩ := h
    exact (hfinalized d hc hf).2

/-- A command with a cause has a first one: the cause with the least code. -/
theorem exists_firstCause {s : State} {i : Instr} (h : ∃ c, FaultApplies s i c) : ∃ c, FirstCause s i c := by
  obtain ⟨c, hc, hmin⟩ := (measure fun c : FaultCode => c.code.toNat).wf.has_min {c | FaultApplies s i c} h
  exact ⟨c, hc, fun b _ hlt hb => hmin b hb (BitVec.lt_def.mp hlt)⟩

/-- In the sessions where INVARIANT is checked the buffer has room (41_sponge_commands.md section 2). -/
theorem State.Inv.not_firstCause_invariant {s : State} (h : s.Inv) (i : Instr) : ¬ FirstCause s i .invariant := by
  rintro ⟨happlies, hbefore⟩
  have hnc := hbefore .notConfigured (by decide) (by decide)
  have hseq := hbefore .sequence (by decide) (by decide)
  cases i with
  | config b => rcases happlies with ⟨hc, _⟩ | ⟨hc, _⟩ <;> cases hc
  | setmode km => rcases happlies with ⟨hc, _⟩ | ⟨hc, _⟩ <;> cases hc
  | init => cases happlies.1
  | absorb offset length window =>
    rcases happlies with ⟨hc, _⟩ | ⟨hc, _⟩ | ⟨hc, _⟩ | ⟨_, d, hc, hfull⟩
    · cases hc
    · cases hc
    · cases hc
    · exact (h.fill_lt_rate hc (absorb_session_of_no_cause hnc hseq)).ne hfull
  | finalize =>
    rcases happlies with ⟨hc, _⟩ | ⟨hc, _⟩ | ⟨_, d, hc, hfull⟩
    · cases hc
    · cases hc
    · exact (h.fill_lt_rate hc (finalize_session_of_no_cause hnc hseq)).ne hfull
  | status => exact happlies

/-- Under the invariants a command answers, and the code it writes, if it writes one, is not INVARIANT. -/
theorem exec_answers {s : State} (hinv : s.Inv) (i : Instr) :
    ∃ t, exec i s = .next t ∧ (t.lastFault = .invariant → s.lastFault = .invariant) := by
  by_cases h : ∃ c, FaultApplies s i c
  · obtain ⟨c, hfirst⟩ := exists_firstCause h
    refine ⟨_, exec_of_firstCause hfirst, fun hc => ?_⟩
    cases (takeFault_lastFault ..).symm.trans hc
    exact absurd hfirst (hinv.not_firstCause_invariant i)
  · obtain ⟨data, u, hexec, hlast, _⟩ := exec_of_no_cause hinv.cfg_eq_none_iff hinv.fill_le_rate (not_exists.mp h)
    exact ⟨_, hexec, fun hc => hlast.symm.trans hc⟩

/-- The same of a step: a wait writes nothing, and an illegal word is answered ILLEGAL_COMMAND. -/
theorem step_answers {s : State} (hinv : s.Inv) :
    ∃ t, step s = .next t ∧ (t.lastFault = .invariant → s.lastFault = .invariant) := by
  rcases step_cases s with ⟨_, e⟩ | ⟨_, op, rest, _, e⟩ | ⟨i, rest, _, e⟩
  · exact ⟨s, e, id⟩
  · exact ⟨_, e, fun hc => nomatch hc⟩
  · rw [e]
    exact exec_answers (s := { s with portIn := rest }) (hinv.congr rfl rfl rfl rfl rfl) i

/-- Settles O35: `step_answers`. -/
theorem stepAlwaysAnswersUnderTheInvariants : Obligations.StepAlwaysAnswersUnderTheInvariants := by
  intro s hinv
  obtain ⟨t, h, _⟩ := step_answers hinv
  exact ⟨t, h⟩

/-- Settles O37: `step_answers`, since a step has one outcome. -/
theorem invariantFaultIsUnreachable : Obligations.InvariantFaultIsUnreachable := by
  intro s t hinv h
  obtain ⟨u, hu, hlast⟩ := step_answers hinv
  cases hu.symm.trans h
  exact hlast

/-- A run from a state with the invariants answers one that has them. -/
theorem run_answers {s : State} (hinv : s.Inv) (n : Nat) : ∃ t, Sys2Proof.core.run n s = .next t ∧ State.Inv t := by
  induction n generalizing s with
  | zero => exact ⟨s, run_zero s, hinv⟩
  | succ n ih =>
    obtain ⟨u, hu, _⟩ := step_answers hinv
    obtain ⟨t, ht, hinvt⟩ := ih (stepKeepsTheInvariants s u hinv hu)
    exact ⟨t, (run_succ n hu).trans ht, hinvt⟩

/-- Settles O36: words delivered to a reset engine leave it the invariants, and `run_answers` does the rest. -/
theorem noHostStreamStopsTheEngine : Obligations.NoHostStreamStopsTheEngine :=
  fun k ws n => run_answers (s := (State.resetWith k).deliver ws) ((inv_resetWith k).congr rfl rfl rfl rfl rfl) n

/-! The session transitions (41_sponge_commands.md section 2). -/

/-- ABSORB leaves READY exactly when it takes in a byte. -/
theorem exec_absorb_fsm {offset length : BitVec 32} {window : List Byte} {s t : State} (hinv : s.Inv)
    (h : exec (.absorb offset length window) s = .next t) :
    t.fsm = if s.fsm = .ready ∧ 0 ≤ offset.toInt ∧ 0 < length.toInt ∧
      offset.toInt + length.toInt ≤ (window.length : Int) then .absorbing else s.fsm := by
  change execAbsorb offset length window s = _ at h
  rcases execAbsorb_cases offset length window s with ⟨hf, e⟩ | ⟨hf, e⟩ | ⟨hf, ⟨hr, e⟩ | ⟨hr, ⟨_, e⟩ |
    ⟨d, hc, ⟨_, e⟩ | ⟨hfull, e⟩ | ⟨_, h0, e⟩ | ⟨_, h0, e⟩⟩⟩⟩ <;> cases e.symm.trans h
  · simp [hf]
  · simp [hf]
  · rw [rangeOk_eq_false] at hr
    exact (if_neg (by omega)).symm
  · exact absurd hfull (hinv.fill_lt_rate hc hf).ne
  · simp [h0]
  · have hlength : length.toInt ≠ 0 := fun hz => h0 (BitVec.eq_of_toInt_eq (hz.trans BitVec.toInt_zero.symm))
    rw [respondOk_fsm, absorbBytes_fsm]
    rw [rangeOk_eq_true] at hr
    rcases hf with hf | hf
    · rw [if_pos ⟨hf, by omega⟩]
    · simp [hf]

/-- FINALIZE ends every configured session. -/
theorem exec_finalize_fsm {s t : State} (hinv : s.Inv) (h : exec .finalize s = .next t) :
    t.fsm = if s.fsm = .unconfigured then .unconfigured else .finalized := by
  change execFinalize s = _ at h
  rcases execFinalize_cases s with ⟨hf, e⟩ | ⟨hf, e⟩ | ⟨hf, ⟨_, e⟩ | ⟨d, hc, ⟨_, e⟩ | ⟨hfull, e⟩ | ⟨_, e⟩⟩⟩ <;>
    cases e.symm.trans h
  · simp [hf]
  · simp [hf]
  · exact absurd hfull (hinv.fill_lt_rate hc hf).ne
  · rcases hf with hf | hf <;> simp [hf]

theorem digestLengthOf_eq_none_iff_not_mem {b : BitVec 16} :
    digestLengthOf b = none ↔ b.toNat ∉ [224, 256, 384, 512] := by
  rw [digestLengthOf_eq_none, mem_digestBits_iff, not_exists]

/-- CONFIG leaves UNCONFIGURED exactly where BITLEN is a digest length. -/
theorem exec_config_fsm {b : BitVec 16} {s t : State} (h : exec (.config b) s = .next t) :
    t.fsm = if s.fsm = .unconfigured ∧ b.toNat ∈ [224, 256, 384, 512] then .ready else s.fsm := by
  change execConfig b s = _ at h
  rcases execConfig_cases b s with ⟨hf, e⟩ | ⟨hf, hb, e⟩ | ⟨d, hf, hb, e⟩ <;> cases e.symm.trans h
  · simp [hf]
  · exact (if_neg (not_and_of_not_right _ (digestLengthOf_eq_none_iff_not_mem.mp hb))).symm
  · have hmem := mem_digestBits_iff.mpr ⟨d, digestLengthOf_eq_some.mp hb⟩
    exact (if_pos ⟨hf, hmem⟩).symm

theorem exec_setmode_fsm {km : Bool} {s t : State} (h : exec (.setmode km) s = .next t) : t.fsm = s.fsm := by
  change execSetmode km s = _ at h
  rcases execSetmode_cases km s with ⟨_, e⟩ | ⟨_, e⟩ | ⟨_, e⟩ <;> cases e.symm.trans h <;> rfl

theorem exec_init_fsm {s t : State} (h : exec .init s = .next t) :
    t.fsm = if s.fsm = .unconfigured then .unconfigured else .ready := by
  change execInit s = _ at h
  rcases execInit_cases s with ⟨hf, e⟩ | ⟨hf, e⟩ <;> cases e.symm.trans h <;> simp [hf]

/-- Settles O31: each command's row is its lemma above, read in each session state. -/
theorem sessionTransitionsFollowTheTable : Obligations.SessionTransitionsFollowTheTable := by
  intro i s t hinv h
  cases i with
  | config b =>
    rw [exec_config_fsm h]
    cases s.fsm <;> simp
  | setmode km => exact exec_setmode_fsm h
  | init =>
    rw [exec_init_fsm h]
    cases s.fsm <;> rfl
  | absorb offset length window =>
    rw [exec_absorb_fsm hinv h]
    cases s.fsm <;> simp
  | finalize =>
    rw [exec_finalize_fsm hinv h]
    cases s.fsm <;> rfl
  | status =>
    cases h
    rfl

/-! The padding mode flag (10_state.md R27). -/

theorem exec_K {i : Instr} {s t : State} (h : exec i s = .next t) :
    t.K = s.K ∨ ∃ km, i = .setmode km ∧ t.K = km := by
  rcases exec_cases h with ⟨_, _, rfl⟩ | ⟨_, _, _, _, _, rfl⟩ | ⟨km, hi, _, rfl⟩ | ⟨_, _, rfl⟩ |
    ⟨_, _, _, _, _, _, _, _, _, ⟨_, rfl⟩ | ⟨_, rfl⟩⟩ | ⟨_, _, _, _, _, rfl⟩ | ⟨_, rfl⟩
  · exact .inl rfl
  · exact .inl rfl
  · exact .inr ⟨km, hi, rfl⟩
  · exact .inl rfl
  · exact .inl rfl
  · exact .inl (by simp)
  · exact .inl rfl
  · exact .inl rfl

/-- Settles O38: a wait and an illegal word leave `K`, and `exec_K` says which command writes it. -/
theorem onlySetmodeWritesThePaddingMode : Obligations.OnlySetmodeWritesThePaddingMode := by
  intro s t h
  rcases step_next_cases h with rfl | ⟨_, _, rfl⟩ | ⟨i, rest, hdec, hexec⟩
  · exact .inl rfl
  · exact .inl rfl
  · rcases exec_K hexec with hK | ⟨km, rfl, hK⟩
    · exact .inl hK
    · exact .inr ⟨km, rest, hdec, hK⟩

end Sys2Proof.Machine
end

section
/-!
PROOFS. What a command's response and next state depend on: the stale bytes of the staging buffer are unobservable
(10_state.md R25), and after INIT the engine is as a fresh one (41_sponge_commands.md section 2, reset correctness).
-/

namespace Sys2Proof.Machine

/-! What a command does where it succeeds, apart from the response. -/

/-- The writes of a success, with the configuration and the operands they use. STATUS and an ABSORB of no bytes write
nothing. -/
inductive Effect where
  | configure (d : DigestLength)
  | setmode (km : Bool)
  | clear
  | keep
  | absorb (d : DigestLength) (input : List Byte)
  | finalize (d : DigestLength)

/-- The state the writes leave. -/
def Effect.apply : Effect → State → State
  | .configure d, s => { clearSession s with cfg := some d }
  | .setmode km, s => { s with K := km }
  | .clear, s => clearSession s
  | .keep, s => s
  | .absorb d input, s => absorbBytes d input s
  | .finalize d, s => finalizeSponge d s

/-- The data words of the response, but for STATUS's. -/
def Effect.data : Effect → State → List Word
  | .finalize d, s => packWords (digestOf d (finalizeSponge d s).A)
  | _, _ => []

/-- Where the effect uses the staging buffer, the buffer has room. -/
def Effect.HasRoom : Effect → State → Prop
  | .absorb d _, s => s.fill < d.rate
  | .finalize d, s => s.fill < d.rate
  | _, _ => True

@[simp] theorem Effect.apply_lastFault (e : Effect) (s : State) : (e.apply s).lastFault = s.lastFault := by
  cases e <;> simp [Effect.apply]

@[simp] theorem Effect.apply_portIn (e : Effect) (s : State) : (e.apply s).portIn = s.portIn := by
  cases e <;> simp [Effect.apply]

@[simp] theorem Effect.apply_portOut (e : Effect) (s : State) : (e.apply s).portOut = s.portOut := by
  cases e <;> simp [Effect.apply]

/-- Two states with the same session state, configuration and fill: all that a command's checks read. -/
structure SameControl (s t : State) : Prop where
  fsm : s.fsm = t.fsm
  cfg : s.cfg = t.cfg
  fill : s.fill = t.fill

/-- `s'` is what `i` answers from `s`, and from `t` the command takes the same fault or has the same effect. -/
def AnswersAlike (i : Instr) (s t s' : State) : Prop :=
  (∃ c, s' = takeFault i.opcode c s ∧ exec i t = .next (takeFault i.opcode c t)) ∨
  ∃ e : Effect, e.HasRoom s ∧ s' = respondOk i.opcode (e.data s) (e.apply s) ∧
    exec i t = .next (respondOk i.opcode (e.data t) (e.apply t))

/-! From two such states every command but STATUS answers alike, command by command. -/

theorem config_answersAlike {b : BitVec 16} {s t s' : State} (hst : SameControl s t)
    (h : exec (.config b) s = .next s') : AnswersAlike (.config b) s t s' := by
  change execConfig b s = _ at h
  obtain ⟨hfsm, -, -⟩ := hst
  rcases execConfig_cases b s with ⟨hf, e⟩ | ⟨hf, hb, e⟩ | ⟨d, hf, hb, e⟩ <;> cases e.symm.trans h
  · exact .inl ⟨_, rfl, exec_config_of_configured (hfsm ▸ hf)⟩
  · exact .inl ⟨_, rfl, exec_config_of_badLength (hfsm ▸ hf) (digestLengthOf_eq_none_iff_not_mem.mp hb)⟩
  · exact .inr ⟨.configure d, trivial, rfl,
      exec_config_of_unconfigured (hfsm ▸ hf) (digestLengthOf_eq_some.mp hb)⟩

theorem setmode_answersAlike {km : Bool} {s t s' : State} (hst : SameControl s t)
    (h : exec (.setmode km) s = .next s') : AnswersAlike (.setmode km) s t s' := by
  change execSetmode km s = _ at h
  obtain ⟨hfsm, -, -⟩ := hst
  rcases execSetmode_cases km s with ⟨hf, e⟩ | ⟨hf, e⟩ | ⟨hf, e⟩ <;> cases e.symm.trans h
  · exact .inl ⟨_, rfl, exec_setmode_of_unconfigured (hfsm ▸ hf)⟩
  · exact .inl ⟨_, rfl, exec_setmode_of_absorbing (hfsm ▸ hf)⟩
  · exact .inr ⟨.setmode km, trivial, rfl, exec_setmode_of_ready_or_finalized (hfsm ▸ hf)⟩

theorem init_answersAlike {s t s' : State} (hst : SameControl s t) (h : exec .init s = .next s') :
    AnswersAlike .init s t s' := by
  change execInit s = _ at h
  obtain ⟨hfsm, -, -⟩ := hst
  rcases execInit_cases s with ⟨hf, e⟩ | ⟨hf, e⟩ <;> cases e.symm.trans h
  · exact .inl ⟨_, rfl, if_pos (hfsm ▸ hf)⟩
  · exact .inr ⟨.clear, trivial, rfl, if_neg (hfsm ▸ hf)⟩

theorem absorb_answersAlike {offset length : BitVec 32} {window : List Byte} {s t s' : State}
    (hst : SameControl s t) (h : exec (.absorb offset length window) s = .next s') :
    AnswersAlike (.absorb offset length window) s t s' := by
  change execAbsorb offset length window s = _ at h
  obtain ⟨hfsm, hcfg, hfill⟩ := hst
  rcases execAbsorb_cases offset length window s with ⟨hf, e⟩ | ⟨hf, e⟩ | ⟨hf, ⟨hr, e⟩ | ⟨hr, ⟨_, e⟩ |
    ⟨d, hc, ⟨_, e⟩ | ⟨hfull, e⟩ | ⟨hlt, h0, e⟩ | ⟨hlt, h0, e⟩⟩⟩⟩ <;> cases e.symm.trans h
  · exact .inl ⟨_, rfl, exec_absorb_of_unconfigured (hfsm ▸ hf)⟩
  · exact .inl ⟨_, rfl, exec_absorb_of_finalized (hfsm ▸ hf)⟩
  · exact .inl ⟨_, rfl, exec_absorb_of_badRange (hfsm ▸ hf) hr⟩
  all_goals
    have hexec := exec_absorb_of_inRange (s := t) (hfsm ▸ hf) (hcfg ▸ hc) hr
    rw [← hfill] at hexec
  · exact .inl ⟨_, rfl, hexec.trans (by rw [if_neg hfull.not_gt, if_pos hfull]; rfl)⟩
  · exact .inr ⟨.keep, trivial, rfl, hexec.trans (by rw [if_neg hlt.not_gt, if_neg hlt.ne, if_pos h0]; rfl)⟩
  · exact .inr ⟨.absorb d (absorbInput offset length window), hlt, rfl,
      hexec.trans (by rw [if_neg hlt.not_gt, if_neg hlt.ne, if_neg h0]; rfl)⟩

theorem finalize_answersAlike {s t s' : State} (hst : SameControl s t) (h : exec .finalize s = .next s') :
    AnswersAlike .finalize s t s' := by
  change execFinalize s = _ at h
  obtain ⟨hfsm, hcfg, hfill⟩ := hst
  rcases execFinalize_cases s with ⟨hf, e⟩ | ⟨hf, e⟩ | ⟨hf, ⟨_, e⟩ | ⟨d, hc, ⟨_, e⟩ | ⟨hfull, e⟩ | ⟨hlt, e⟩⟩⟩ <;>
    cases e.symm.trans h
  · exact .inl ⟨_, rfl, exec_finalize_of_unconfigured (hfsm ▸ hf)⟩
  · exact .inl ⟨_, rfl, exec_finalize_of_finalized (hfsm ▸ hf)⟩
  all_goals
    have hexec := exec_finalize_of_configured (s := t) (hfsm ▸ hf) (hcfg ▸ hc)
    rw [← hfill] at hexec
  · exact .inl ⟨_, rfl, hexec.trans (by rw [if_neg hfull.not_gt, if_pos hfull]; rfl)⟩
  · exact .inr ⟨.finalize d, hlt, rfl, hexec.trans (by rw [if_neg hlt.not_gt, if_neg hlt.ne]; rfl)⟩

theorem exec_answersAlike {i : Instr} {s t s' : State} (hst : SameControl s t) (hi : i ≠ .status)
    (h : exec i s = .next s') : AnswersAlike i s t s' := by
  cases i with
  | config b => exact config_answersAlike hst h
  | setmode km => exact setmode_answersAlike hst h
  | init => exact init_answersAlike hst h
  | absorb offset length window => exact absorb_answersAlike hst h
  | finalize => exact finalize_answersAlike hst h
  | status => exact absurd rfl hi

/-! Stale buffer bytes (10_state.md R25). -/

theorem State.SameButStale.sameControl {s t : State} (h : s.SameButStale t) : SameControl s t := by
  obtain ⟨-, hcfg, hfill, -, hfsm, -⟩ := h
  exact ⟨hfsm, hcfg, hfill⟩

/-- The staged bytes are those below `fill`. -/
theorem State.SameButStale.readBytes_eq {s t : State} (h : s.SameButStale t) (hle : s.fill ≤ 144) :
    readBytes t.buf s.fill = readBytes s.buf s.fill := by
  obtain ⟨-, -, -, -, -, -, -, hbuf⟩ := h
  exact readBytes_congr hle fun j hj => (hbuf ⟨j, by omega⟩ hj).symm

theorem getElem_eq_of_readBytes_eq {b b' : BufferCells} {n : Nat} (hn : n ≤ 144)
    (h : readBytes b n = readBytes b' n) (j : Fin 144) (hj : j.val < n) : b[j] = b'[j] := by
  have hcell := congrArg (·[j.val]?) h
  simp only [getElem?_readBytes hj hn, Option.some_inj] at hcell
  exact hcell

theorem absorb_sameButStale {d : DigestLength} {input : List Byte} {s t : State} (h : s.SameButStale t)
    (hlt : s.fill < d.rate) : (absorbBytes d input s).SameButStale (absorbBytes d input t) := by
  have hle := d.rate_le
  have hstaged := h.readBytes_eq (by omega)
  obtain ⟨hA, hcfg, hfill, hK, -, hlast, hin, -⟩ := h
  obtain ⟨hsA, hsfill, hsbuf⟩ := absorbBytes_spec (input := input) hlt
  obtain ⟨htA, htfill, htbuf⟩ := absorbBytes_spec (input := input) (hfill ▸ hlt)
  rw [← hfill] at htfill
  rw [← hfill, hstaged, ← hA] at htA
  rw [← hfill, hstaged] at htbuf
  refine ⟨hsA.trans htA.symm, by simpa using hcfg, hsfill.trans htfill.symm, by simpa using hK, by simp,
    by simpa using hlast, by simpa using hin, fun j hj => ?_⟩
  have hmod := Nat.mod_lt (s.fill + input.length) d.rate_pos
  exact getElem_eq_of_readBytes_eq (by omega) (hsbuf.trans htbuf.symm) j (hsfill ▸ hj)

theorem finalize_sameButStale {d : DigestLength} {s t : State} (h : s.SameButStale t) (hlt : s.fill < d.rate) :
    (finalizeSponge d s).SameButStale (finalizeSponge d t) := by
  have hstaged := h.readBytes_eq (by have := d.rate_le; omega)
  obtain ⟨hA, hcfg, hfill, hK, -, hlast, hin, hbuf⟩ := h
  have hlt' : t.fill < d.rate := hfill ▸ hlt
  refine ⟨?_, hcfg, congrArg (· + 1) hfill, hK, rfl, hlast, hin, fun j hj => ?_⟩
  · rw [finalizeSponge_A, finalizeSponge_A, readBytes_padBuffer hlt, readBytes_padBuffer hlt', ← hfill, hstaged,
      hA, hK]
  · rw [finalizeSponge_fill] at hj
    rw [Fin.getElem_fin, Fin.getElem_fin, finalizeSponge_buf, finalizeSponge_buf, getElem_padBuffer hlt,
      getElem_padBuffer hlt', hK, ← hfill]
    split
    · exact hbuf j (by omega)
    · rfl

/-- Every effect leaves such states alike, and answers alike. -/
theorem Effect.sameButStale {e : Effect} {s t : State} (h : s.SameButStale t) (hroom : e.HasRoom s) :
    (e.apply s).SameButStale (e.apply t) ∧ e.data s = e.data t := by
  cases e with
  | absorb d input => exact ⟨absorb_sameButStale h hroom, rfl⟩
  | finalize d =>
    have hfin := finalize_sameButStale h hroom
    exact ⟨hfin, congrArg (fun A => packWords (digestOf d A)) hfin.1⟩
  | keep => exact ⟨h, rfl⟩
  | configure d =>
    obtain ⟨-, -, -, hK, -, hlast, hin, -⟩ := h
    exact ⟨⟨rfl, rfl, rfl, hK, rfl, hlast, hin, fun _ _ => rfl⟩, rfl⟩
  | setmode km =>
    obtain ⟨hA, hcfg, hfill, -, hfsm, hlast, hin, hbuf⟩ := h
    exact ⟨⟨hA, hcfg, hfill, rfl, hfsm, hlast, hin, hbuf⟩, rfl⟩
  | clear =>
    obtain ⟨-, hcfg, -, hK, -, hlast, hin, -⟩ := h
    exact ⟨⟨rfl, hcfg, rfl, hK, rfl, hlast, hin, fun _ _ => rfl⟩, rfl⟩

theorem State.SameButStale.statusWord_eq {s t : State} (h : s.SameButStale t) : statusWord s = statusWord t := by
  obtain ⟨-, hcfg, hfill, hK, hfsm, hlast, -, -⟩ := h
  simp only [statusWord, hcfg, hfill, hK, hfsm, hlast]

theorem State.SameButStale.takeFault {s t : State} (h : s.SameButStale t) (op : Byte) (c : FaultCode) :
    (takeFault op c s).SameButStale (takeFault op c t) := by
  obtain ⟨hA, hcfg, hfill, hK, hfsm, -, hin, hbuf⟩ := h
  exact ⟨hA, hcfg, hfill, hK, hfsm, rfl, hin, hbuf⟩

/-- Settles O42: STATUS shows no buffer byte, and every other command takes the same fault or has the same effect. -/
theorem staleBufferBytesAreUnobservable : Obligations.StaleBufferBytesAreUnobservable := by
  intro i s t s' hst h
  by_cases hi : i = .status
  · subst hi
    cases h
    exact ⟨_, [okWord opStatus, statusWord t], rfl, hst, by rw [respondOk_portOut, hst.statusWord_eq], rfl⟩
  · rcases exec_answersAlike hst.sameControl hi h with ⟨c, rfl, ht⟩ | ⟨e, hroom, rfl, ht⟩
    · exact ⟨_, [faultWord i.opcode c], ht, hst.takeFault _ _, rfl, rfl⟩
    · obtain ⟨hsame, hdata⟩ := e.sameButStale hst hroom
      exact ⟨_, okWord i.opcode :: e.data t, ht, hsame, by simp [hdata], by simp⟩

/-! Reset correctness (41_sponge_commands.md section 2). -/

theorem State.SameSession.sameControl {s t : State} (h : s.SameSession t) : SameControl s t := by
  obtain ⟨-, hcfg, -, hfill, -, hfsm⟩ := h
  exact ⟨hfsm, hcfg, hfill⟩

theorem absorb_sameSession {d : DigestLength} {input : List Byte} {s t : State} (h : s.SameSession t)
    (hlt : s.fill < d.rate) : (absorbBytes d input s).SameSession (absorbBytes d input t) := by
  obtain ⟨hA, hcfg, hbuf, hfill, hK, -⟩ := h
  rw [absorbBytes_eq hlt, absorbBytes_eq (hfill ▸ hlt)]
  refine ⟨?_, hcfg, ?_, ?_, hK, rfl⟩
  · rw [hA, hbuf, hfill]
  · rw [stagedCells, stagedCells, hbuf, hfill]
  · rw [hfill]

/-- Every effect keeps two sessions the same, and answers alike. -/
theorem Effect.sameSession {e : Effect} {s t : State} (h : s.SameSession t) (hroom : e.HasRoom s) :
    (e.apply s).SameSession (e.apply t) ∧ e.data s = e.data t := by
  cases e with
  | absorb d input => exact ⟨absorb_sameSession h hroom, rfl⟩
  | finalize d =>
    obtain ⟨hA, hcfg, hbuf, hfill, hK, -⟩ := h
    have hlanes : (finalizeSponge d s).A = (finalizeSponge d t).A := by
      rw [finalizeSponge_A, finalizeSponge_A, hA, hbuf, hfill, hK]
    refine ⟨⟨hlanes, hcfg, ?_, congrArg (· + 1) hfill, hK, rfl⟩, ?_⟩
    · rw [Effect.apply, Effect.apply, finalizeSponge_buf, finalizeSponge_buf, hbuf, hfill, hK]
    · rw [Effect.data, Effect.data, hlanes]
  | keep => exact ⟨h, rfl⟩
  | configure d =>
    obtain ⟨-, -, -, -, hK, -⟩ := h
    exact ⟨⟨rfl, rfl, rfl, rfl, hK, rfl⟩, rfl⟩
  | setmode km =>
    obtain ⟨hA, hcfg, hbuf, hfill, -, hfsm⟩ := h
    exact ⟨⟨hA, hcfg, hbuf, hfill, rfl, hfsm⟩, rfl⟩
  | clear =>
    obtain ⟨-, hcfg, -, -, hK, -⟩ := h
    exact ⟨⟨rfl, hcfg, rfl, rfl, hK, rfl⟩, rfl⟩

/-- Two values that agree under a mask, field by field. -/
theorem and_append_congr {m n : Nat} {x x' mx : BitVec m} {y y' my : BitVec n} (hx : x &&& mx = x' &&& mx)
    (hy : y &&& my = y' &&& my) : (x ++ y) &&& (mx ++ my) = (x' ++ y') &&& (mx ++ my) := by
  rw [BitVec.and_append, BitVec.and_append, hx, hy]

/-- Outside LASTFAULT, STATUS shows the session state alone (10_state.md R30). -/
theorem State.SameSession.statusWord_eq {s t : State} (h : s.SameSession t) :
    statusWord s &&& 0xFFFFFF8F = statusWord t &&& 0xFFFFFF8F := by
  obtain ⟨-, hcfg, -, hfill, hK, hfsm⟩ := h
  have hmask : (0xFFFFFF8F : Word) =
      BitVec.allOnes 25 ++ 0#3 ++ BitVec.allOnes 1 ++ BitVec.allOnes 1 ++ BitVec.allOnes 2 := by decide
  have hfault : s.lastFault.code &&& 0#3 = t.lastFault.code &&& 0#3 := by rw [BitVec.and_zero, BitVec.and_zero]
  rw [hmask, statusWord, statusWord, hcfg, hfill, hK, hfsm]
  exact and_append_congr (and_append_congr (and_append_congr (and_append_congr rfl hfault) rfl) rfl) rfl

/-- INIT in a configured engine and CONFIG after hardware reset leave the same session. -/
theorem init_sameSession_fresh {s : State} {d : DigestLength} (hf : s.fsm ≠ .unconfigured) (hc : s.cfg = some d) :
    ∃ t u, exec .init s = .next t ∧
      exec (.config (BitVec.ofNat 16 d.bits)) (State.resetWith s.K) = .next u ∧ t.SameSession u := by
  have hbits : (BitVec.ofNat 16 d.bits).toNat = d.bits := by cases d <;> rfl
  exact ⟨_, _, if_neg hf, exec_config_of_unconfigured rfl hbits, rfl, hc, rfl, rfl, rfl, rfl⟩

/-- Settles O43: `init_sameSession_fresh`, and the same fault or the same effect from two equal sessions. -/
theorem initIsAsGoodAsAFreshInstance : Obligations.InitIsAsGoodAsAFreshInstance := by
  refine ⟨fun s d => init_sameSession_fresh, fun i s t s' hst h => ?_⟩
  by_cases hi : i = .status
  · subst hi
    cases h
    exact ⟨_, _, _, rfl, hst, rfl, rfl, fun hne => absurd rfl hne, fun _ => ⟨_, _, rfl, rfl, hst.statusWord_eq⟩⟩
  · rcases exec_answersAlike hst.sameControl hi h with ⟨c, rfl, ht⟩ | ⟨e, hroom, rfl, ht⟩
    · exact ⟨_, [faultWord i.opcode c], [faultWord i.opcode c], ht, hst, rfl, rfl, fun _ => rfl,
        fun hstatus => absurd hstatus hi⟩
    · obtain ⟨hsame, hdata⟩ := e.sameSession hst hroom
      exact ⟨_, okWord i.opcode :: e.data s, okWord i.opcode :: e.data t, ht, hsame, by simp, by simp,
        fun _ => by rw [hdata], fun hstatus => absurd hstatus hi⟩

end Sys2Proof.Machine
end

section
/-!
PROOFS. The sponge (41_sponge_commands.md section 2): ABSORB extends the message (R148), FINALIZE answers the digest of
the padded message (R149), and what follows for whole sessions at the port, for the pseudo-instructions
(30_encoding.md section 6), for the empty message (R152) and for the padding modes (R153).
-/

namespace Sys2Proof.Machine

/-! The absorb law (R148). -/

/-- A cleared READY state has absorbed the empty message. -/
theorem hasAbsorbed_nil {s : State} {d : DigestLength} (hf : s.fsm = .ready) (hc : s.cfg = some d)
    (hclear : s.Cleared) : s.HasAbsorbed d [] := by
  obtain ⟨hA, -, hfill⟩ := hclear
  refine ⟨hc, .inl hf, ?_, ?_, ?_⟩
  · rw [hA, fullBlocks_of_lt (by simpa using d.rate_pos), absorbAll_nil]
  · simp [hfill]
  · simp [hfill, readBytes]

theorem State.HasAbsorbed.fill_lt_rate {s : State} {d : DigestLength} {M : List Byte} (h : s.HasAbsorbed d M) :
    s.fill < d.rate := by
  obtain ⟨-, -, -, hfill, -⟩ := h
  exact hfill ▸ Nat.mod_lt _ d.rate_pos

/-- The session that ABSORB and FINALIZE act in: configured, and not finalized. -/
theorem State.HasAbsorbed.session {s : State} {d : DigestLength} {M : List Byte} (h : s.HasAbsorbed d M) :
    s.cfg = some d ∧ (s.fsm = .ready ∨ s.fsm = .absorbing) ∧ s.fill < d.rate := by
  have hlt := h.fill_lt_rate
  obtain ⟨hc, hf, -⟩ := h
  exact ⟨hc, hf, hlt⟩

/-- The bytes after the last whole block of a longer message are those after the last whole block of what was staged
and what came. -/
theorem drop_whole_append (rate : Nat) (M N : List Byte) :
    (M ++ N).drop ((M ++ N).length - (M ++ N).length % rate) =
      (M.drop (M.length - M.length % rate) ++ N).drop
        (M.length % rate + N.length - (M.length % rate + N.length) % rate) := by
  have hmod : (M.length + N.length) % rate = (M.length % rate + N.length) % rate := (Nat.mod_add_mod ..).symm
  have hM := Nat.mod_le M.length rate
  have hN := Nat.mod_le (M.length % rate + N.length) rate
  rw [← List.drop_append_of_le_length (Nat.sub_le ..), List.drop_drop, List.length_append, hmod]
  congr 1
  omega

/-- ABSORB's steps (a) to (d) append their input to the message. -/
theorem absorbBytes_hasAbsorbed {s : State} {d : DigestLength} {M : List Byte} (h : s.HasAbsorbed d M)
    (input : List Byte) : (absorbBytes d input s).HasAbsorbed d (M ++ input) := by
  obtain ⟨hsA, hsfill, hsbuf⟩ := absorbBytes_spec (input := input) h.fill_lt_rate
  obtain ⟨hc, -, hA, hfill, hbuf⟩ := h
  have hlen : (absorbBytes d input s).fill = (M ++ input).length % d.rate := by
    rw [hsfill, hfill, List.length_append, Nat.mod_add_mod]
  refine ⟨by simpa using hc, .inr (absorbBytes_fsm ..), ?_, hlen, ?_⟩
  · rw [hsA, hA, hbuf, fullBlocks_append_rest d.rate_pos M, absorbAll_append]
  · rw [hsfill, hsbuf, hbuf, hfill, drop_whole_append]

theorem exec_absorb_of_hasAbsorbed {offset length : BitVec 32} {window M : List Byte} {s : State} {d : DigestLength}
    (h : s.HasAbsorbed d M) (hr : rangeOk offset length window.length = true) :
    ∃ u, exec (.absorb offset length window) s = .next (respondOk opAbsorb [] u) ∧
      u.HasAbsorbed d (M ++ absorbInput offset length window) ∧
      u.K = s.K ∧ u.lastFault = s.lastFault ∧ u.portIn = s.portIn ∧ u.portOut = s.portOut := by
  obtain ⟨hc, hf, hlt⟩ := h.session
  have hexec := exec_absorb_of_inRange hf hc hr
  rw [if_neg hlt.not_gt, if_neg hlt.ne] at hexec
  by_cases h0 : length = 0
  · have hnil : absorbInput offset length window = [] := by simp [absorbInput, memRead, h0]
    refine ⟨s, hexec.trans (if_pos h0), ?_, rfl, rfl, rfl, rfl⟩
    rwa [hnil, List.append_nil]
  · exact ⟨_, hexec.trans (if_neg h0), absorbBytes_hasAbsorbed h _, by simp, by simp, by simp, by simp⟩

/-- Settles O44: CONFIG and INIT leave a cleared READY state, and ABSORB's steps append. -/
theorem absorbExtendsTheMessage : Obligations.AbsorbExtendsTheMessage := by
  refine ⟨fun b s d hf hb => ?_, fun s d hf hc => ?_, fun offset length window M s d h hoffset hlength hsum => ?_⟩
  · exact ⟨_, exec_config_of_unconfigured hf hb, hasAbsorbed_nil rfl rfl ⟨rfl, rfl, rfl⟩⟩
  · exact ⟨_, if_neg hf, hasAbsorbed_nil rfl hc ⟨rfl, rfl, rfl⟩⟩
  · obtain ⟨u, hexec, habsorbed, -⟩ := exec_absorb_of_hasAbsorbed h (rangeOk_eq_true.mpr ⟨hoffset, hlength, hsum⟩)
    exact ⟨_, hexec, habsorbed⟩

/-! The sponge law (R149). -/

theorem fullBlocks_of_length_eq {rate : Nat} {B : List Byte} (hr : 0 < rate) (h : B.length = rate) :
    fullBlocks rate B = [B] := by
  rw [fullBlocks_cons hr h.ge, List.take_of_length_le h.le, fullBlocks_of_lt (by simpa [h] using hr)]

/-- The last block of the padded message: the bytes after the last whole block and the padding (R149). -/
def lastBlock (d : DigestLength) (K : Bool) (M : List Byte) : List Byte :=
  M.drop (M.length - M.length % d.rate) ++ messagePad d.rate K (M.length % d.rate)

theorem length_lastBlock (d : DigestLength) (K : Bool) (M : List Byte) : (lastBlock d K M).length = d.rate := by
  have hlt := Nat.mod_lt M.length d.rate_pos
  have hle := Nat.mod_le M.length d.rate
  rw [lastBlock, List.length_append, List.length_drop, length_messagePad K hlt]
  omega

/-- `A_end` is the message's whole blocks absorbed, and then the last block. -/
theorem spongeLanes_eq (d : DigestLength) (K : Bool) (M : List Byte) :
    spongeLanes d K M =
      absorbBlock (absorbAll d zeroLanes (fullBlocks d.rate M)) (lastBlock d K M) d.laneCount := by
  rw [spongeLanes, paddedMessage, fullBlocks_append_rest d.rate_pos, absorbAll_append, ← lastBlock,
    fullBlocks_of_length_eq d.rate_pos (length_lastBlock d K M), absorbAll_cons, absorbAll_nil]

theorem length_paddedMessage (d : DigestLength) (K : Bool) (M : List Byte) :
    (paddedMessage d K M).length = (M.length / d.rate + 1) * d.rate := by
  have hlt := Nat.mod_lt M.length d.rate_pos
  have hdiv := Nat.div_add_mod' M.length d.rate
  rw [paddedMessage, List.length_append, length_messagePad K hlt, Nat.add_mul]
  omega

theorem finalizeSponge_A_of_hasAbsorbed {s : State} {d : DigestLength} {M : List Byte} (h : s.HasAbsorbed d M) :
    (finalizeSponge d s).A = spongeLanes d s.K M := by
  have hlt := h.fill_lt_rate
  obtain ⟨-, -, hA, hfill, hbuf⟩ := h
  rw [finalizeSponge_A, readBytes_padBuffer hlt, hbuf, hA, hfill, spongeLanes_eq, lastBlock]

theorem exec_finalize_of_hasAbsorbed {s : State} {d : DigestLength} {M : List Byte} (h : s.HasAbsorbed d M) :
    exec .finalize s =
      .next (respondOk opFinalize (packWords (spongeDigest d s.K M)) (finalizeSponge d s)) := by
  obtain ⟨hc, hf, hlt⟩ := h.session
  have hexec := exec_finalize_of_configured hf hc
  rwa [if_neg hlt.not_gt, if_neg hlt.ne, finalizeSponge_A_of_hasAbsorbed h] at hexec

/-- Settles O45: the padded buffer is the last block of the padded message. -/
theorem finalizeAnswersTheSpongeDigest : Obligations.FinalizeAnswersTheSpongeDigest := by
  intro M s d h
  refine ⟨_, exec_finalize_of_hasAbsorbed h, finalizeSponge_A_of_hasAbsorbed h, rfl, ?_, rfl,
    length_paddedMessage d s.K M⟩
  obtain ⟨-, -, -, hfill, -⟩ := h
  rw [respondOk_fill, finalizeSponge_fill, hfill]

/-! Sessions at the port. -/

/-- A length below `2^31` is counted by LENGTH. -/
theorem toInt_ofNat_of_lt {n : Nat} (h : n < 2 ^ 31) : (BitVec.ofNat 32 n).toInt = n := by
  have hn : (BitVec.ofNat 32 n).toNat = n := Nat.mod_eq_of_lt (by omega)
  rw [BitVec.toInt_eq_toNat_of_lt (by omega), hn]

theorem rangeOk_whole {c : List Byte} (h : c.length < 2 ^ 31) :
    rangeOk 0 (BitVec.ofNat 32 c.length) c.length = true := by
  rw [rangeOk_eq_true, toInt_ofNat_of_lt h]
  simp

theorem absorbInput_whole {c : List Byte} (h : c.length < 2 ^ 31) :
    absorbInput 0 (BitVec.ofNat 32 c.length) c = c := by
  rw [absorbInput, memRead, toInt_ofNat_of_lt h]
  simp

/-- The words of one ABSORB for each chunk (30_encoding.md R70, R74). -/
def chunkWords (chunks : List (List Byte)) : List Word :=
  chunks.flatMap fun c => encode (.absorb 0 (BitVec.ofNat 32 c.length) c)

/-- A port that holds an ABSORB for each chunk and then a FINALIZE: the chunks extend the message, and the digest of the
whole is answered. -/
theorem run_chunks {d : DigestLength} {rest : List Word} (chunks : List (List Byte))
    (hchunks : ∀ c ∈ chunks, c.length < 2 ^ 31) {s : State} {M : List Byte} (h : s.HasAbsorbed d M)
    (hin : s.portIn = chunkWords chunks ++ encode .finalize ++ rest) :
    ∃ t : State, Sys2Proof.core.run (chunks.length + 1) s = .next t ∧
      t.portOut = s.portOut ++ List.replicate chunks.length 0x00000004 ++
        0x00000005 :: packWords (spongeDigest d s.K (M ++ chunks.flatten)) ∧
      t.portIn = rest ∧ t.fsm = .finalized ∧ t.lastFault = s.lastFault := by
  induction chunks generalizing s M with
  | nil =>
    have hstep : step s = _ := (step_of_encode (i := .finalize) rfl hin).trans
      (exec_finalize_of_hasAbsorbed (s := { s with portIn := rest }) h)
    refine ⟨_, (run_succ 0 hstep).trans (run_zero _), ?_, rfl, rfl, rfl⟩
    rw [List.flatten_nil, List.append_nil, List.length_nil, List.replicate_zero, List.append_nil]
    rfl
  | cons c chunks ih =>
    have hc : c.length < 2 ^ 31 := hchunks c List.mem_cons_self
    have hwf : (Instr.absorb 0 (BitVec.ofNat 32 c.length) c).wellFormed = true :=
      decide_eq_true (hc.trans (by decide))
    have hfirst : s.portIn = encode (.absorb 0 (BitVec.ofNat 32 c.length) c) ++
        (chunkWords chunks ++ encode .finalize ++ rest) := by
      simp only [hin, chunkWords, List.flatMap_cons, List.append_assoc]
    obtain ⟨u, hexec, habsorbed, hK, hlast, huin, hout⟩ := exec_absorb_of_hasAbsorbed
      (s := { s with portIn := chunkWords chunks ++ encode .finalize ++ rest }) h (rangeOk_whole hc)
    rw [absorbInput_whole hc] at habsorbed
    obtain ⟨t, hrun, htout, htin, htfsm, htlast⟩ := ih (fun c' hc' => hchunks c' (List.mem_cons_of_mem c hc'))
      (s := respondOk opAbsorb [] u) habsorbed huin
    refine ⟨t, (run_succ _ ((step_of_encode hwf hfirst).trans hexec)).trans hrun, ?_, htin, htfsm,
      htlast.trans hlast⟩
    have hword : okWord opAbsorb = 0x00000004 := by decide
    rw [htout, respondOk_portOut, respondOk_K, hout, hK, hword, List.flatten_cons, ← List.append_assoc M,
      List.length_cons, List.replicate_succ]
    simp

/-- Settles O46: a cleared READY state has absorbed the empty message, and `run_chunks` extends it. -/
theorem chunkedSessionAnswersTheDigestOfTheWhole : Obligations.ChunkedSessionAnswersTheDigestOfTheWhole := by
  intro chunks s d rest hf hc hclear hchunks hin
  have hrun := run_chunks chunks hchunks (hasAbsorbed_nil hf hc hclear) hin
  simpa only [List.nil_append] using hrun

/-- Settles O47: INIT begins the empty message, and the window is its one chunk. -/
theorem hashAnswersTheDigestOfItsWindow : Obligations.HashAnswersTheDigestOfItsWindow := by
  intro window s d rest hf hc hlen hin
  have hfirst : s.portIn = encode .init ++ (chunkWords [window] ++ encode .finalize ++ rest) := by
    simpa [hashExpansion, chunkWords] using hin
  have hstep := (step_of_encode rfl hfirst).trans (if_neg hf)
  obtain ⟨t, hrun, hout, htin, -⟩ := run_chunks [window] (by simpa using hlen)
    (hasAbsorbed_nil (s := respondOk opInit [] (clearSession
      { s with portIn := chunkWords [window] ++ encode .finalize ++ rest })) rfl hc ⟨rfl, rfl, rfl⟩) rfl
  refine ⟨t, (run_succ 2 hstep).trans hrun, htin, ?_⟩
  have hword : okWord opInit = 0x00000003 := by decide
  rw [hout, respondOk_portOut, hword]
  simp

/-- Settles O48: CONFIG and then SETMODE on a reset engine; `K` is written before anything reads it. -/
theorem setupFixesModeAndLengthWhateverTheResetMode :
    Obligations.SetupFixesModeAndLengthWhateverTheResetMode := by
  intro k km d rest
  have hbits : (BitVec.ofNat 16 d.bits).toNat = d.bits := by cases d <;> rfl
  have hin : ((State.resetWith k).deliver
      ((setupExpansion (BitVec.ofNat 16 d.bits) km).flatMap encode ++ rest)).portIn =
      encode (.config (BitVec.ofNat 16 d.bits)) ++ (encode (.setmode km) ++ rest) := by
    simp [setupExpansion]
  have hconfig := (step_of_encode rfl hin).trans (exec_config_of_unconfigured rfl hbits)
  have hsetmode (s : State) (hf : s.fsm = .ready) (hnext : s.portIn = encode (.setmode km) ++ rest) :=
    (step_of_encode rfl hnext).trans (exec_setmode_of_ready_or_finalized (.inl hf))
  exact ⟨_, (run_succ 1 hconfig).trans ((run_succ 0 (hsetmode _ rfl rfl)).trans (run_zero _)), rfl⟩

/-! The empty message (R152). -/

/-- The padding of the empty message, byte by byte. -/
theorem getD_messagePad_empty {d : DigestLength} {K : Bool} {j : Nat} (hj : j < d.rate) :
    (messagePad d.rate K 0).getD j 0 = if j = d.rate - 1 then 0x80 else if j = 0 then delimiter K else 0 := by
  have hr := d.le_rate
  rw [getD_messagePad K (by omega), if_neg (show 0 ≠ d.rate - 1 by omega), Nat.sub_zero]
  rfl

/-- The padding of the empty message, lane by lane (R152). -/
theorem blockLane_messagePad_empty {d : DigestLength} {K : Bool} {i : Nat} (hi : i < d.laneCount) :
    blockLane (messagePad d.rate K 0) i =
      if i = 0 then (if K then 0x01 else 0x06) else if i = d.laneCount - 1 then 0x8000000000000000 else 0 := by
  have hr := d.le_rate
  have hlanes := d.eight_mul_laneCount
  rw [blockLane]
  by_cases h0 : i = 0
  · subst h0
    simp (disch := omega) only [getD_messagePad_empty, if_neg]
    cases K <;> rfl
  · by_cases hlast : i = d.laneCount - 1
    · simp (disch := omega) only [getD_messagePad_empty, if_pos, if_neg]
      rfl
    · simp (disch := omega) only [getD_messagePad_empty, if_neg]
      rfl

/-- The padding of the empty message XORed into the zero state. -/
theorem xorBlock_messagePad_empty (d : DigestLength) (K : Bool) :
    xorBlock zeroLanes (messagePad d.rate K 0) d.laneCount = Vector.ofFn fun i =>
      if i.val = 0 then (if K then 0x01 else 0x06)
      else if i.val = d.rate / 8 - 1 then 0x8000000000000000 else 0 := by
  have hr := d.le_rate
  have hcount : d.laneCount = d.rate / 8 := rfl
  apply Vector.ext
  intro i hi
  have hzero : zeroLanes[i] = 0 := by simp [zeroLanes]
  rw [getElem_xorBlock, hzero, Vector.getElem_ofFn]
  by_cases hlt : i < d.laneCount
  · rw [if_pos hlt, blockLane_messagePad_empty hlt, zero_xor]
    rfl
  · rw [if_neg hlt, if_neg (show i ≠ 0 by omega), if_neg (show i ≠ d.rate / 8 - 1 by omega)]

theorem lastBlock_nil (d : DigestLength) (K : Bool) : lastBlock d K [] = messagePad d.rate K 0 := by
  simp [lastBlock]

/-- Settles O49: the empty message's one block is its padding. -/
theorem emptyMessagePermutesOnePaddedBlock : Obligations.EmptyMessagePermutesOnePaddedBlock := by
  intro s d hf hc hclear
  have habsorbed := hasAbsorbed_nil hf hc hclear
  have hA := finalizeSponge_A_of_hasAbsorbed habsorbed
  have hlanes : spongeLanes d s.K [] = keccakF (xorBlock zeroLanes (messagePad d.rate s.K 0) d.laneCount) := by
    rw [spongeLanes_eq, lastBlock_nil, fullBlocks_of_lt d.rate_pos, absorbAll_nil, absorbBlock]
  refine ⟨_, exec_finalize_of_hasAbsorbed habsorbed, ?_, ?_⟩
  · rw [respondOk_A, hA, hlanes, xorBlock_messagePad_empty]
  · rw [respondOk_A, hA]
    rfl

/-! The padding modes (R153). -/

/-- The two paddings of a block differ in their first byte alone. -/
theorem messagePad_getElem?_ne_iff (rate f k : Nat) :
    (messagePad rate true f)[k]? ≠ (messagePad rate false f)[k]? ↔ k = 0 := by
  have hdelimiter : delimiter true ≠ delimiter false := by decide
  have hlast : delimiter true ||| 0x80 ≠ delimiter false ||| 0x80 := by decide
  rw [messagePad, messagePad]
  split
  · cases k with
    | zero => simpa using hdelimiter
    | succ k => simp
  · cases k with
    | zero => simpa using hlast
    | succ k => simp

theorem paddedMessage_getElem?_ne_iff (d : DigestLength) (M : List Byte) (j : Nat) :
    (paddedMessage d true M)[j]? ≠ (paddedMessage d false M)[j]? ↔ j = M.length := by
  rw [paddedMessage, paddedMessage]
  rcases Nat.lt_or_ge j M.length with hlt | hge
  · rw [List.getElem?_append_left hlt, List.getElem?_append_left hlt]
    exact iff_of_false (fun h => h rfl) hlt.ne
  · rw [List.getElem?_append_right hge, List.getElem?_append_right hge, messagePad_getElem?_ne_iff]
    omega

theorem lastBlock_ne (d : DigestLength) (M : List Byte) : lastBlock d true M ≠ lastBlock d false M := by
  intro h
  have hpad := List.append_cancel_left h
  exact (messagePad_getElem?_ne_iff d.rate (M.length % d.rate) 0).mpr rfl (by rw [hpad])

/-- AbsorbBlock tells blocks apart: the XOR shows every byte, and KeccakF is injective (R112, R113). -/
theorem eq_of_absorbBlock_eq {A : Lanes} {B B' : List Byte} {laneCount : Nat} (hle : laneCount ≤ 25)
    (hB : B.length = 8 * laneCount) (hB' : B'.length = 8 * laneCount)
    (h : absorbBlock A B laneCount = absorbBlock A B' laneCount) : B = B' := by
  have hxor : xorBlock A B laneCount = xorBlock A B' laneCount := keccakF_injective h
  have hlane : ∀ i < laneCount, blockLane B i = blockLane B' i := by
    intro i hi
    have hi25 : i < 25 := by omega
    have hlanes := congrArg (·[i]) hxor
    simp only [getElem_xorBlock, if_pos hi] at hlanes
    exact (BitVec.xor_right_inj _).mp hlanes
  refine List.ext_getElem (hB.trans hB'.symm) fun j hj hj' => ?_
  have hbyte := congrArg (laneByte · (j % 8)) (hlane (j / 8) (by omega))
  simp only [laneByte_blockLane _ _ (Nat.mod_lt j (show 0 < 8 by decide)), Nat.div_add_mod] at hbyte
  rwa [List.getD_eq_getElem _ _ hj, List.getD_eq_getElem _ _ hj'] at hbyte

/-- Settles O50: the last blocks differ, and AbsorbBlock tells them apart. -/
theorem paddingModesDifferInOneByteAndInTheEndState : Obligations.PaddingModesDifferInOneByteAndInTheEndState := by
  refine fun d M => ⟨by rw [length_paddedMessage, length_paddedMessage], paddedMessage_getElem?_ne_iff d M,
    fun h => lastBlock_ne d M ?_⟩
  have hlanes := d.eight_mul_laneCount
  have hrate := d.rate_le
  rw [spongeLanes_eq, spongeLanes_eq] at h
  exact eq_of_absorbBlock_eq (by omega) ((length_lastBlock ..).trans hlanes.symm)
    ((length_lastBlock ..).trans hlanes.symm) h

end Sys2Proof.Machine
end
